-- ==== Sys2Proof/Word.lean ====
section
/-! DEFINITION. The machine's data words: bits and BitStrings (00_scope.md R1, R2). -/

namespace Sys2Proof

/-- One bit: `true` is 1, `false` is 0 (R1: "Every element is exactly 0 or 1"). -/
abbrev Bit := Bool

/-- A BitString (R1): an ordered, finite sequence of bits, the leftmost first. The empty one stands only
for a field a command does not produce and for an operand a command rejects. -/
abbrev BitString := List Bit

end Sys2Proof
end

