-- ==== Sys2Proof/Machine/Bits.lean ====
section
/-! DEFINITION. The BitString primitives of 00_scope.md R3 and the number tests of R5. Positions are 1-indexed
from the left (R2). `len`, `++` are `List.length` and `++`. -/

namespace Sys2Proof.Machine

/-- `s[i]`, defined by R3 for `1 <= i <= len(s)`. Outside that range the answer is 0; no rule asks there
(log 10). -/
def bitAt (s : BitString) (i : Nat) : Bit := if i = 0 then false else s.getD (i - 1) false

/-- `s[i..j]`, defined by R3 for `1 <= i` and `j <= len(s)`; the empty BitString when `j = i - 1`. Outside that
range R3 leaves it undefined and the model cuts it short at the end of `s`: `sub s 1 5` of a `s` of 3 elements
is `s`; `i = 0` gives the first `j + 1` elements; `j < i - 1` gives the empty BitString. DESIGN CHOICE (log 10);
no rule asks there. -/
def sub (s : BitString) (i j : Nat) : BitString := (s.drop (i - 1)).take (j + 1 - i)

/-- `zeros(k)` (R3). -/
def zeros (k : Nat) : BitString := List.replicate k false

/-- `iszero(s)` (R3): every element is 0; true of the empty BitString. -/
def isZero (s : BitString) : Bool := s.all (fun b => !b)

/-- `NAME[i] <- b` (R7): element `i` replaced, everything else unchanged. Outside `1 .. len` nothing changes
(DESIGN CHOICE, log 10; no rule writes there). -/
def setAt (s : BitString) (i : Nat) (b : Bit) : BitString := if i = 0 then s else s.set (i - 1) b

/-- `flip(s, i)` (R3): element `i` complemented, for `1 <= i <= len(s)`. Outside that range R3 leaves it undefined
and the model gives `s` (DESIGN CHOICE, log 10). Also the host action `FLIP` (R76). -/
def flipAt (s : BitString) (i : Nat) : BitString := setAt s i (!bitAt s i)

/-- `ispow2(j)` (R5): `j = 2^i` for some `i >= 0`. -/
def isPow2 (j : Nat) : Bool := decide (2 ^ Nat.log2 j = j)

/-- The bit test `j & p != 0` (R5). -/
def covers (p j : Nat) : Bool := decide (j &&& p ≠ 0)

/-- The positions `1 .. m` in increasing order. -/
def positions (m : Nat) : List Nat := List.range' 1 m

end Sys2Proof.Machine
end

