-- ==== Sys2Proof/Config.lean ====
section
/-! DEFINITION. What an implementation fixes (00_scope.md section 4, D4) and the free values the spec leaves open. -/

namespace Sys2Proof

/-- The capacity `CAP`, the one OPEN parameter (D4, U14): the largest length of any BitString on a port or
in a latch; an integer of at least 3, or unbounded. -/
inductive Capacity where
  | bounded (n : Nat)
  | unbounded
deriving DecidableEq, Repr

/-- FREE VALUE (U5, log 6): where a host breaks R174 the spec does not say which of the presented
commands is captured. The value picks one of them; nothing constrains it. -/
opaque Config.pickPresented : Nat → Nat

end Sys2Proof
end

