-- ==== Sys2Proof/Syntax.lean ====
section
/-! DEFINITION. The four commands (30_encoding.md R60 to R62) and the wires that carry one. -/

namespace Sys2Proof

/-- One operand as a pair of ports carries it (R41, R62): the length field and the bit field, each the
unsigned natural on its wires (R6). Pad wires are part of `bits`. -/
structure Operand where
  len  : Nat
  bits : Nat
deriving DecidableEq, Repr

/-- The commands of opcode_table.json. Every command carries both operands on its wires; what each
command uses is R62, and the Hamming commands ignore `b` (R69). -/
inductive Instr where
  /-- `CRC_ENC data, key` (R100). -/
  | crcEnc (a b : Operand)
  /-- `CRC_VFY codeword, key` (R102). -/
  | crcVfy (a b : Operand)
  /-- `HAM_ENC data` (R128). -/
  | hamEnc (a b : Operand)
  /-- `HAM_DEC codeword` (R132). -/
  | hamDec (a b : Operand)
deriving DecidableEq, Repr

/-- The command wires `op`, `a_len`, `a_bits`, `b_len`, `b_bits` (R60 and the port table). -/
structure CmdWires where
  op : BitVec 2
  a  : Operand
  b  : Operand
deriving DecidableEq, Repr

end Sys2Proof
end

