-- ==== Sys2Proof/Machine/State.lean ====
section
/-! DEFINITION. The machine's state: every latch of 10_state.md section 3, the capacity, and the model's own
fields for the host's moves. Plain data throughout. -/

namespace Sys2Proof.Machine

/-- The outcome of a command (30_encoding.md R67). The fourth pattern of the two wires, 11, is never
produced, so it is no value of the type (U12). -/
inductive Status where
  | ok
  | invalidInput
  | syndromeRange
deriving DecidableEq, Repr

/-- A response (30_encoding.md R64), also the response latch `RSP` (10_state.md R28). -/
structure Response where
  status : Status
  flag   : Bit
  r0     : BitString
  r1     : BitString
  errpos : Nat
deriving DecidableEq, Repr

/-- `PHASE` (10_state.md R24). -/
inductive Phase where
  /-- no command in flight, none answered and untaken -/
  | idle
  /-- a command is accepted and its response is not yet ready -/
  | busy
  /-- a response is ready and not yet taken -/
  | done
deriving DecidableEq, Repr

/-- The model's own sequencer (log 5): which loop of the algorithm a BUSY core is in, with the values its
loop variables are about to take. -/
inductive Stage where
  /-- no algorithm in progress -/
  | rest
  /-- the conditional XORs of the divider (R84, R85) -/
  | divide
  /-- the search for `r` (R120, R121) -/
  | search
  /-- placement, next position `pos` (R126) -/
  | place (pos : Nat)
  /-- parity, next visit `PI = i`, `J = j` (R127) -/
  | parity (i j : Nat)
  /-- the checks, next visit `PI = i`, `J = j` (R130) -/
  | check (i j : Nat)
  /-- correction (R131) -/
  | correct
deriving DecidableEq, Repr

/-- The working latches of the CRC unit (10_state.md R26). -/
structure DivLatches where
  divd : BitString
  tmp  : BitString
  pick : Nat
deriving DecidableEq, Repr

/-- The working latches of the Hamming unit (10_state.md R27). -/
structure HamLatches where
  r      : Nat
  cw     : BitString
  pos    : Nat
  didx   : Nat
  pi     : Nat
  j      : Nat
  acc    : Bit
  errAcc : Nat
deriving DecidableEq, Repr

/-- How far the core gets in one step (R21, R178, log 4): to the end of its command, or `k` micro-steps. `k = 0`
delays the core, and a schedule holds finitely many such steps, so it never stops the core for good (R180). -/
inductive Pace where
  | atOnce
  | ticks (k : Nat)
deriving DecidableEq, Repr

/-- What one step sees: the host's wires (30_encoding.md section 1) and the core's own pace. -/
structure Tick where
  rst      : Bool
  cmdValid : Bool
  cmd      : CmdWires
  rspReady : Bool
  pace     : Pace
deriving DecidableEq, Repr

/-- Everything a CHC core holds. `op`, `a`, `b` are the command latches (R25), `div` and `ham` the working
latches (R26, R27), `rsp` the response latch (R28). `cap` is the configuration (D4). `stage`, `inputs`,
`presented` and `draws` are the model's own (log 3 to log 6). -/
structure State where
  cap       : Capacity
  phase     : Phase
  op        : BitVec 2
  a         : Operand
  b         : Operand
  div       : DivLatches
  ham       : HamLatches
  rsp       : Response
  stage     : Stage
  inputs    : List Tick
  presented : List CmdWires
  draws     : Nat
deriving DecidableEq, Repr

/-- The faults that stop the machine: none. Nobody raises one, and that is safe: `InvalidInput` and
`SYNDROME_RANGE` are responses (60_exceptions.md R153, R154, R158; log 9), and the core has no stuck
state (70_reset_and_hazards.md R180). -/
inductive Fault where
deriving DecidableEq, Repr

/-- The refusals of the model. -/
inductive Refusal where
  /-- Raised by `exec`'s arm for a command that has no meaning yet; safe. No arm raises it. -/
  | notModelled (mnemonic : String)
deriving DecidableEq, Repr

/-- The all-zero response: the value `RSP` has at reset (DESIGN CHOICE, log 2). -/
def Response.zero : Response := { status := .ok, flag := false, r0 := [], r1 := [], errpos := 0 }

/-- The divider's latches at reset: R33 leaves them unspecified (DESIGN CHOICE, log 2). -/
def DivLatches.reset : DivLatches := { divd := [], tmp := [], pick := 0 }

/-- The Hamming unit's latches at reset: R33 leaves them unspecified (DESIGN CHOICE, log 2). -/
def HamLatches.reset : HamLatches :=
  { r := 0, cw := [], pos := 0, didx := 0, pi := 0, j := 0, acc := false, errAcc := 0 }

/-- A core of capacity `cap` right after reset (10_state.md R33, 70_reset_and_hazards.md R171): `PHASE` is IDLE;
the other latches hold the values log 2 names; no host move is scheduled. -/
def State.resetWith (cap : Capacity) : State :=
  { cap := cap, phase := .idle, op := 0#2, a := { len := 0, bits := 0 }, b := { len := 0, bits := 0 }
    div := .reset, ham := .reset, rsp := .zero, stage := .rest, inputs := [], presented := [], draws := 0 }

/-- The machine right after reset, at the capacity of opcode_table.json (DESIGN CHOICE, log 1). -/
def State.reset : State := State.resetWith (.bounded 16)

end Sys2Proof.Machine
end

