-- ==== Sys2Proof/Machine/Divider.lean ====
section
/-! DEFINITION. The GF(2) divider (40_gf2_divider.md R80 to R87, R90), over the CRC unit's latches. -/

namespace Sys2Proof.Machine

/-- `xor(a, b)` (R80): bitwise, of two BitStrings of equal length. R80 gives no other case; there the model stops at
the shorter one (DESIGN CHOICE, log 10). -/
def xorBits (a b : BitString) : BitString := List.zipWith Bool.xor a b

/-- `sel(T, K)` (R81): the divisor if the window's leading bit is 1, else zeros of its length, for `T` and `K` of one
length `L >= 1`. R81 gives no other case; there the model's answer has the length of `K`, and an empty `T` counts as
leading with 0 (DESIGN CHOICE, log 10). -/
def sel (t k : BitString) : BitString := if bitAt t 1 then k else zeros k.length

/-- Step 1 (R83): `DIVD <- D`; `TMP <- D[1..L]`; `PICK <- L`, for `len(D) >= L` (R82; otherwise log 10). -/
def DivLatches.load (d : BitString) (l : Nat) : DivLatches := { divd := d, tmp := sub d 1 l, pick := l }

/-- `XR`, the conditional XOR of one step (R84, R85): a combinational value, not a latch (R26). -/
def DivLatches.xr (k : BitString) (v : DivLatches) : BitString := xorBits v.tmp (sel v.tmp k)

/-- Step 2, one iteration (R84): drop the leading bit of `XR`, append the next dividend bit. R84 runs it while
`PICK < N`; past the last bit the model appends nothing (DESIGN CHOICE, log 10). -/
def DivLatches.iterate (k : BitString) (v : DivLatches) : DivLatches :=
  { v with
    tmp := sub (v.xr k) 2 k.length ++ sub v.divd (v.pick + 1) (v.pick + 1)
    pick := v.pick + 1 }

/-- `c` iterations of step 2. -/
def DivLatches.iterations (k : BitString) : Nat → DivLatches → DivLatches
  | 0, v => v
  | c + 1, v => DivLatches.iterations k c (v.iterate k)

/-- Steps 1 and 2 of a whole division: `while PICK < N` runs exactly `N - L` times (R87, R88). -/
def DivLatches.divide (d k : BitString) : DivLatches :=
  DivLatches.iterations k (d.length - k.length) (DivLatches.load d k.length)

/-- Steps 3 and 4 (R85, R86): the final conditional XOR, its leading bit dropped. -/
def DivLatches.remainder (k : BitString) (v : DivLatches) : BitString := sub (v.xr k) 2 k.length

/-- `mod2div(D, K)` (R82, R87), for `len(K) >= 2` and `len(D) >= len(K)`. Outside these preconditions R82 says
nothing, no command divides, and the value is the model's (DESIGN CHOICE, log 10). -/
def mod2div (d k : BitString) : BitString := (DivLatches.divide d k).remainder k

/-- One step of the serial form (R90), with `KL = K[2..L]`, for a register of `W >= 1` bits. Without a bit in it the
model appends the dividend bit all the same (DESIGN CHOICE, log 10). -/
def serialStep (kl : BitString) (rem : BitString) (d : Bit) : BitString :=
  if bitAt rem 1 then xorBits (sub rem 2 rem.length ++ [d]) kl else sub rem 2 rem.length ++ [d]

/-- `mod2div_serial(D, K)` (R90): the shift-register form, one dividend bit at a time, for `W = len(K) - 1 >= 1`. For a
key of fewer than 2 bits R90 gives nothing and the value is the model's (DESIGN CHOICE, log 10). -/
def mod2divSerial (d k : BitString) : BitString :=
  d.foldl (serialStep (sub k 2 k.length)) (zeros (k.length - 1))

end Sys2Proof.Machine
end

