-- ==== Sys2Proof/Machine/HammingUnit.lean ====
section
/-! DEFINITION. The Hamming unit (42_hamming_commands.md R120 to R131), over its latches. -/

namespace Sys2Proof.Machine

/-- The encoder's search test (R120): `2^R < n + R + 1`, so `R` is still too small. -/
def encShort (n r : Nat) : Bool := decide (2 ^ r < n + r + 1)

/-- The decoder's search test (R121): `2^R < m + 1`. -/
def decShort (m r : Nat) : Bool := decide (2 ^ r < m + 1)

/-- `while short R: R <- R + 1`, with fuel for the loop. -/
def searchUp (short : Nat → Bool) : Nat → Nat → Nat
  | 0, r => r
  | fuel + 1, r => if short r then searchUp short fuel (r + 1) else r

/-- `r_enc(n)` (R120). The search from 1 ends within `n` increments, since `2^(n+1) >= n + (n+1) + 1`.
R120 is for `n >= 1`; at 0 the value is that of the same search, 1 (DESIGN CHOICE, log 22). -/
def rEnc (n : Nat) : Nat := searchUp (encShort n) (n + 1) 1

/-- `r_dec(m)` (R121). The search from 1 ends within `m` increments, since `2^m >= m + 1`.
R121 is for `m >= 1`; at 0 the value is that of the same search, 1 (DESIGN CHOICE, log 22). -/
def rDec (m : Nat) : Nat := searchUp (decShort m) (m + 1) 1

/-- The positions of `cover(p, m)` (R125), for `p` a power of two; for another `p` those that share a bit with it
(DESIGN CHOICE, log 22). -/
def cover (p m : Nat) : List Nat := (positions m).filter (covers p)

/-- The data positions of a codeword of length `m` in increasing order (R122). -/
def dataPositions (m : Nat) : List Nat := (positions m).filter (fun j => !isPow2 j)

/-- The host's reading of the data bits of a codeword (R138); no command does it. -/
def extractData (cw : BitString) : BitString := (dataPositions cw.length).map (bitAt cw)

/-! ### Encode -/

/-- The start of placement (R126): `CW <- zeros(m)`; `DIDX <- 0`. -/
def HamLatches.openPlacement (m : Nat) (h : HamLatches) : HamLatches := { h with cw := zeros m, didx := 0 }

/-- Placement at one position (R126). -/
def HamLatches.placeAt (data : BitString) (h : HamLatches) (pos : Nat) : HamLatches :=
  if isPow2 pos then { h with pos := pos, cw := setAt h.cw pos false }
  else { h with pos := pos, didx := h.didx + 1, cw := setAt h.cw pos (bitAt data (h.didx + 1)) }

/-- Encode step 2 (R126): the walk over positions `1 .. m`. -/
def HamLatches.place (data : BitString) (m : Nat) (h : HamLatches) : HamLatches :=
  (positions m).foldl (HamLatches.placeAt data) (h.openPlacement m)

/-- The start of one parity group or check (R127, R130): `PI = i`; `ACC <- 0`. -/
def HamLatches.openGroup (i : Nat) (h : HamLatches) : HamLatches := { h with pi := i, acc := false }

/-- One visit of the parity loop (R127): position `j` counts if it is covered and is not `p` itself. -/
def HamLatches.parityVisit (i : Nat) (h : HamLatches) (j : Nat) : HamLatches :=
  { h with j := j
           acc := if covers (2 ^ i) j && decide (j ≠ 2 ^ i) then Bool.xor h.acc (bitAt h.cw j) else h.acc }

/-- The end of a parity group (R127): `CW[p] <- ACC`. -/
def HamLatches.closeParity (i : Nat) (h : HamLatches) : HamLatches := { h with cw := setAt h.cw (2 ^ i) h.acc }

/-- One parity bit (R127). -/
def HamLatches.parityGroup (m : Nat) (h : HamLatches) (i : Nat) : HamLatches :=
  ((positions m).foldl (HamLatches.parityVisit i) (h.openGroup i)).closeParity i

/-- Encode step 3 (R127): all `r` parity bits. -/
def HamLatches.parity (r m : Nat) (h : HamLatches) : HamLatches :=
  (List.range r).foldl (HamLatches.parityGroup m) h

/-- The whole encode (R128): `r`, placement, parity. -/
def HamLatches.encode (data : BitString) (h : HamLatches) : HamLatches :=
  let r := rEnc data.length
  let m := data.length + r
  (HamLatches.place data m { h with r := r }).parity r m

/-! ### Decode -/

/-- The start of the checks (R130): `ERRACC <- 0`. -/
def HamLatches.openChecks (h : HamLatches) : HamLatches := { h with errAcc := 0 }

/-- One visit of a check (R130): every covered position counts, `p` included. -/
def HamLatches.checkVisit (i : Nat) (h : HamLatches) (j : Nat) : HamLatches :=
  { h with j := j
           acc := if covers (2 ^ i) j then Bool.xor h.acc (bitAt h.cw j) else h.acc }

/-- The end of a check (R130): a failed check adds `p` to `ERRACC`. -/
def HamLatches.closeCheck (i : Nat) (h : HamLatches) : HamLatches :=
  { h with errAcc := if h.acc then h.errAcc + 2 ^ i else h.errAcc }

/-- One check (R130). -/
def HamLatches.checkGroup (m : Nat) (h : HamLatches) (i : Nat) : HamLatches :=
  ((positions m).foldl (HamLatches.checkVisit i) (h.openGroup i)).closeCheck i

/-- Decode step 2 (R130): all `r` checks. -/
def HamLatches.checks (r m : Nat) (h : HamLatches) : HamLatches :=
  (List.range r).foldl (HamLatches.checkGroup m) h.openChecks

/-- The syndrome of a received word (R130): `CW <- codeword`, `r`, the checks. -/
def HamLatches.decode (cw : BitString) (h : HamLatches) : HamLatches :=
  let r := rDec cw.length
  HamLatches.checks r cw.length { h with cw := cw, r := r }

/-- Correction (R131): nothing for syndrome 0 or a syndrome past the end, else position `e` flipped. -/
def correctAt (cw : BitString) (e : Nat) : BitString :=
  if e = 0 then cw else if e ≤ cw.length then flipAt cw e else cw

/-- The codeword `HAM_ENC` computes for `data` (R128), at least one bit; of no data the model makes "0" (DESIGN
CHOICE, log 22). -/
def hamCodeword (data : BitString) : BitString := (HamLatches.reset.encode data).cw

/-- The syndrome `HAM_DEC` computes for a received word (R130), at least one bit; of the empty word the model makes 0
(DESIGN CHOICE, log 22). -/
def syndrome (cw : BitString) : Nat := (HamLatches.reset.decode cw).errAcc

end Sys2Proof.Machine
end

