-- ==== Sys2Proof/Machine/Flags.lean ====
section
/-! DEFINITION. The result indications of a response and the four response shapes (10_state.md R29;
30_encoding.md R65, R67; 60_exceptions.md R153, R154). -/

namespace Sys2Proof.Machine

/-- `flag` of `CRC_VFY` (R29, R102): 1 iff the remainder is all zero. -/
def verifyFlag (rem : BitString) : Bit := isZero rem

/-- The status of a decode (R131, R154): a syndrome past the end of the codeword is `SYNDROME_RANGE`. -/
def decodeStatus (m e : Nat) : Status := if e ≤ m then .ok else .syndromeRange

/-- The response of `CRC_ENC` (R65, R100). -/
def Response.crcEnc (data rem : BitString) : Response :=
  { status := .ok, flag := false, r0 := data ++ rem, r1 := rem, errpos := 0 }

/-- The response of `CRC_VFY` (R65, R102). -/
def Response.crcVfy (rem : BitString) : Response :=
  { status := .ok, flag := verifyFlag rem, r0 := [], r1 := [], errpos := 0 }

/-- The response of `HAM_ENC` (R65, R128). -/
def Response.hamEnc (cw : BitString) : Response :=
  { status := .ok, flag := false, r0 := cw, r1 := [], errpos := 0 }

/-- The response of `HAM_DEC` (R65, R131, R132, R154). -/
def Response.hamDec (cw : BitString) (e : Nat) : Response :=
  { status := decodeStatus cw.length e, flag := false, r0 := correctAt cw e, r1 := [], errpos := e }

/-- The fault response of `INVALID_INPUT` (R153). -/
def Response.invalid : Response :=
  { status := .invalidInput, flag := false, r0 := [], r1 := [], errpos := 0 }

end Sys2Proof.Machine
end

