-- ==== Sys2Proof/Machine/Operands.lean ====
section
/-! DEFINITION. The one operand form (20_memory.md R41, R42; 30_encoding.md R62): a BitString on a length port and
a bit port. -/

namespace Sys2Proof

/-- `bitstring(x_len, x_bits)` (R41, R62): element `i` of the `k`-bit string is wire `k - i`, so wires at
and above `k` are padding and are not read (R42). R41 covers `k <= CAP`. A longer operand is invalid where a command
uses it (R68), so no command assembles it; as a value its first elements have no wire `k - i`, and the model reads
each as that bit of the natural on the wires, 0 where they fit `CAP` (DESIGN CHOICE, log 21; seen in `commandLine`). -/
def Operand.value (x : Operand) : BitString :=
  (Machine.positions x.len).map (fun i => x.bits.testBit (x.len - i))

/-- The unsigned natural that a BitString spells, the leftmost bit most significant (R41). -/
def bitsNat (s : BitString) : Nat := s.foldl (fun acc b => 2 * acc + b.toNat) 0

/-- A BitString on its ports, every pad wire 0 (R41, R42). For one longer than `CAP`, which R41 leaves out, the
naturals are those the ports would need (DESIGN CHOICE, log 21). -/
def Operand.ofBits (s : BitString) : Operand := { len := s.length, bits := bitsNat s }

end Sys2Proof
end

