-- ==== Sys2Proof/Machine/Ops.lean ====
section
/-! DEFINITION. The shared operations on State: capturing a command, answering it, the fault response, taking
a response, reset. Taking a fault is `State.reject`; there is nothing to return from (R159), and what
ends a fault, like any response, is `State.take`. -/

namespace Sys2Proof.Machine

/-- Capture (10_state.md R34; 20_memory.md R43): `OP`, `A`, `B` take the command's wires, all at once. -/
def State.capture (s : State) (op : BitVec 2) (a b : Operand) : State := { s with op := op, a := a, b := b }

/-- The transition into DONE (R28, R35): `RSP` is written, once per command, and the algorithm is over. -/
def State.answer (s : State) (rsp : Response) : State := { s with rsp := rsp, phase := .done, stage := .rest }

/-- `raise InvalidInput` (00_scope.md R7; 60_exceptions.md R153, R158): the fault response and nothing else. No
working latch is touched, nothing is saved, no mode changes. -/
def State.reject (s : State) : State := s.answer .invalid

/-- The response is taken (10_state.md R36; 60_exceptions.md R159): back to IDLE, nothing left behind. -/
def State.take (s : State) : State := { s with phase := .idle }

/-- Reset (70_reset_and_hazards.md R170, R171; 10_state.md R33): `PHASE` becomes IDLE whatever it was; the
other latches, unspecified by R33, get the values of log 2; the record of presented commands is
cleared (log 7). -/
def State.resetLatches (s : State) : State :=
  { State.resetWith s.cap with inputs := s.inputs, draws := s.draws }

end Sys2Proof.Machine
end

