-- ==== Sys2Proof/Machine/Widths.lean ====
section
/-! DEFINITION. The widths that follow from `CAP` (00_scope.md section 4) and wire slices (R6). -/

namespace Sys2Proof

/-- `LEN_W = ceil(log2(CAP + 1))`: the smallest width that can hold the value `CAP` (log 13). At `CAP = 0`, no legal
capacity, the model gives 1 (DESIGN CHOICE, log 22). -/
def lenW (cap : Nat) : Nat := Nat.log2 cap + 1

/-- `POS_W = LEN_W + 1`, the width of `errpos`. -/
def posW (cap : Nat) : Nat := lenW cap + 1

/-- `CMD_W = 2 + 2*LEN_W + 2*CAP` (R63). -/
def cmdW (cap : Nat) : Nat := 2 + 2 * lenW cap + 2 * cap

/-- `RSP_W = 3 + 2*LEN_W + 2*CAP + POS_W` (R66). -/
def rspW (cap : Nat) : Nat := 3 + 2 * lenW cap + 2 * cap + posW cap

/-- The slice of `width` wires of `w` from wire `lo` upward, read as an unsigned natural (R6:
`w[hi:lo]` with `width = hi - lo + 1`). -/
def slice (w lo width : Nat) : Nat := w / 2 ^ lo % 2 ^ width

/-- Whether a BitString of length `k` is within the capacity: `k <= CAP`, always so when unbounded. -/
def Capacity.admits : Capacity → Nat → Bool
  | .bounded n, k => decide (k ≤ n)
  | .unbounded, _ => true

/-- The values `CAP` may take: an integer of at least 3, or unbounded (D4). -/
def Capacity.legal : Capacity → Bool
  | .bounded n => decide (3 ≤ n)
  | .unbounded => true

/-- Whether `k` fits a length field of `LEN_W` wires; there is no width to fit when `CAP` is unbounded. -/
def Capacity.holdsLen : Capacity → Nat → Bool
  | .bounded n, k => decide (k < 2 ^ lenW n)
  | .unbounded, _ => true

/-- Whether `w` fits a bit field of `CAP` wires. -/
def Capacity.holdsBits : Capacity → Nat → Bool
  | .bounded n, w => decide (w < 2 ^ n)
  | .unbounded, _ => true

/-- Whether `e` fits the `POS_W` wires of `errpos`. -/
def Capacity.holdsPos : Capacity → Nat → Bool
  | .bounded n, e => decide (e < 2 ^ posW n)
  | .unbounded, _ => true

end Sys2Proof
end

