-- ==== Sys2Proof/Machine/Validity.lean ====
section
/-! DEFINITION. The validity check at acceptance (60_exceptions.md R151). -/

namespace Sys2Proof.Machine

/-- `invalid(op, a_len, b_len)` (R151), cause by cause. It reads the opcode and the two lengths only. -/
def invalid (cap : Capacity) (op : BitVec 2) (aLen bLen : Nat) : Bool :=
  if aLen = 0 || !cap.admits aLen then true                                  -- causes 1, 2
  else if !op.getLsbD 1 && (decide (bLen < 2) || !cap.admits bLen) then true  -- causes 3, 4
  else if op = 0b00#2 && !cap.admits (aLen + bLen - 1) then true             -- cause 5
  else if op = 0b01#2 && decide (aLen < bLen) then true                      -- cause 6
  else if op = 0b10#2 && !cap.admits (aLen + rEnc aLen) then true            -- cause 7
  else false

end Sys2Proof.Machine
end

