-- ==== Sys2Proof/Machine/Crc.lean ====
section
/-! DEFINITION. The CRC commands (41_crc_commands.md R100, R102), from acceptance to response (10_state.md R35). -/

namespace Sys2Proof.Machine

/-- The dividend of `CRC_ENC` (R26, R100): `data ++ zeros(L - 1)`, for `L >= 2`; with an empty key the model appends
nothing (DESIGN CHOICE, log 22). -/
def padded (data key : BitString) : BitString := data ++ zeros (key.length - 1)

/-- `CRC_ENC data, key` (R100). -/
def execCrcEnc (a b : Operand) (s : State) : Host.Outcome State Fault Refusal :=
  let c := s.capture 0b00#2 a b
  if invalid s.cap 0b00#2 a.len b.len then .next c.reject
  else
    let v := DivLatches.divide (padded a.value b.value) b.value
    .next ({ c with div := v }.answer (.crcEnc a.value (v.remainder b.value)))

/-- `CRC_VFY codeword, key` (R102). -/
def execCrcVfy (a b : Operand) (s : State) : Host.Outcome State Fault Refusal :=
  let c := s.capture 0b01#2 a b
  if invalid s.cap 0b01#2 a.len b.len then .next c.reject
  else
    let v := DivLatches.divide a.value b.value
    .next ({ c with div := v }.answer (.crcVfy (v.remainder b.value)))

end Sys2Proof.Machine
end

