-- ==== Sys2Proof/Machine/Hamming.lean ====
section
/-! DEFINITION. The Hamming commands (42_hamming_commands.md R128, R132), from acceptance to response (10_state.md R35).
Operand B is captured (R34) and not read (30_encoding.md R69). -/

namespace Sys2Proof.Machine

/-- `HAM_ENC data` (R128). -/
def execHamEnc (a b : Operand) (s : State) : Host.Outcome State Fault Refusal :=
  let c := s.capture 0b10#2 a b
  if invalid s.cap 0b10#2 a.len b.len then .next c.reject
  else
    let h := s.ham.encode a.value
    .next ({ c with ham := h }.answer (.hamEnc h.cw))

/-- `HAM_DEC codeword` (R132). -/
def execHamDec (a b : Operand) (s : State) : Host.Outcome State Fault Refusal :=
  let c := s.capture 0b11#2 a b
  if invalid s.cap 0b11#2 a.len b.len then .next c.reject
  else
    let h := s.ham.decode a.value
    .next ({ c with ham := h }.answer (.hamDec h.cw h.errAcc))

end Sys2Proof.Machine
end

