-- ==== Sys2Proof/Machine/Dispatch.lean ====
section
/-! DEFINITION. The dispatch of a command to its meaning (30_encoding.md R71): one arm per row of opcode_table.json. -/

namespace Sys2Proof.Machine

def exec (i : Instr) (s : State) : Host.Outcome State Fault Refusal :=
  match i with
  | .crcEnc a b => Sys2Proof.Machine.execCrcEnc a b s
  | .crcVfy a b => Sys2Proof.Machine.execCrcVfy a b s
  | .hamEnc a b => Sys2Proof.Machine.execHamEnc a b s
  | .hamDec a b => Sys2Proof.Machine.execHamDec a b s

end Sys2Proof.Machine
end

