-- ==== Sys2Proof/Machine/Ports.lean ====
section
/-! DEFINITION. The output ports (30_encoding.md section 1; 10_state.md R28, R34, R36) and the flattened response
word (30_encoding.md R66). -/

namespace Sys2Proof.Machine

/-- The step of a host that does nothing. A BUSY core goes on all the same, one micro-step a step: the schedule
of moves is finite and the core advances after it, so it never hangs (70_reset_and_hazards.md R180, U13; log 4). -/
def Tick.quiet : Tick :=
  { rst := false, cmdValid := false, cmd := { op := 0#2, a := { len := 0, bits := 0 }, b := { len := 0, bits := 0 } }
    rspReady := false, pace := .ticks 1 }

/-- What the wires carry during this step: the host's next move, or nothing when none is scheduled. -/
def State.now (s : State) : Tick := s.inputs.headD .quiet

/-- `cmd_ready` (R34, R170): 1 exactly when `PHASE = IDLE` and reset is not asserted. -/
def State.cmdReady (s : State) : Bool := decide (s.phase = .idle) && !s.now.rst

/-- `rsp_valid` (R36, R170): 1 exactly when `PHASE = DONE` and reset is not asserted. -/
def State.rspValid (s : State) : Bool := decide (s.phase = .done) && !s.now.rst

/-- The response port (R36): the fields of `RSP` while a response is offered; otherwise its wires carry no
meaning, and the model shows none (log 17). -/
def State.rspPort (s : State) : Option Response := if s.rspValid then some s.rsp else none

/-- The status code (R67). -/
def Status.code : Status → BitVec 2
  | .ok => 0b00#2
  | .invalidInput => 0b01#2
  | .syndromeRange => 0b10#2

/-- The status of a code (R67); 11 is never produced, and a reader refuses it (U12). -/
def Status.ofCode (c : BitVec 2) : Option Status :=
  match c.toNat with
  | 0 => some .ok
  | 1 => some .invalidInput
  | 2 => some .syndromeRange
  | _ => none

/-- The flattened response word `rsp` for capacity `cap` (R66); pad wires are 0 (R42). For a response that fits its
wires (`Response.fits`); a field too wide for them, for which `zext_N` is not defined (00_scope.md R7), is added
unmasked and runs into the next field (DESIGN CHOICE, log 19; no step uses this word). -/
def encodeResponse (cap : Nat) (r : Response) : Nat :=
  r.status.code.toNat
    + r.flag.toNat * 2 ^ 2
    + (Operand.ofBits r.r0).len * 2 ^ 3
    + (Operand.ofBits r.r0).bits * 2 ^ (lenW cap + 3)
    + (Operand.ofBits r.r1).len * 2 ^ (lenW cap + cap + 3)
    + (Operand.ofBits r.r1).bits * 2 ^ (2 * lenW cap + cap + 3)
    + r.errpos * 2 ^ (2 * lenW cap + 2 * cap + 3)

/-- Why a number is refused as a response word. -/
inductive ResponseError where
  /-- the status wires carry 11: a broken core (R67) -/
  | brokenCore
  /-- a wire above `RSP_W - 1` would have to carry a 1 (log 12) -/
  | widerThanResponse
deriving DecidableEq, Repr

/-- The host's reading of a flattened response word (R66, R41). Of the words no core produces, the spec names only
those of status 11 (R67, U12), refused here. The others have no reading in the spec, and the model reads their
fields as they stand: a length above `CAP` is taken with the missing bit wires as 0, pad wires that carry a 1 are
passed over, fields a status or a command leaves zero may hold anything (DESIGN CHOICE, log 20). -/
def decodeResponse (cap w : Nat) : Except ResponseError Response :=
  if w < 2 ^ rspW cap then
    match Status.ofCode (BitVec.ofNat 2 (slice w 0 2)) with
    | none => .error .brokenCore
    | some st =>
      .ok
        { status := st
          flag := w.testBit 2
          r0 := Operand.value { len := slice w 3 (lenW cap), bits := slice w (lenW cap + 3) cap }
          r1 := Operand.value
            { len := slice w (lenW cap + cap + 3) (lenW cap), bits := slice w (2 * lenW cap + cap + 3) cap }
          errpos := slice w (2 * lenW cap + 2 * cap + 3) (posW cap) }
  else .error .widerThanResponse

end Sys2Proof.Machine
end

