-- ==== Sys2Proof/WellFormed.lean ====
section
/-! DEFINITION. When a command fits its wires: length fields of `LEN_W`, bit fields of `CAP` wires (R63). A
length above `CAP` that fits the field is well formed: it is a legal thing to present, and answered
with INVALID_INPUT (R68). -/

namespace Sys2Proof

def Operand.wellFormed (cap : Capacity) (x : Operand) : Bool :=
  cap.holdsLen x.len && cap.holdsBits x.bits

def CmdWires.wellFormed (cap : Capacity) (c : CmdWires) : Bool :=
  c.a.wellFormed cap && c.b.wellFormed cap

def Instr.wellFormed (cap : Capacity) : Instr → Bool
  | .crcEnc a b => a.wellFormed cap && b.wellFormed cap
  | .crcVfy a b => a.wellFormed cap && b.wellFormed cap
  | .hamEnc a b => a.wellFormed cap && b.wellFormed cap
  | .hamDec a b => a.wellFormed cap && b.wellFormed cap

end Sys2Proof
end

