-- ==== Sys2Proof/Decode.lean ====
section
/-! DEFINITION. The decoder and the encoder of commands: from the port wires (R61, R62) and from the
flattened word of `CMD_W` wires (R63). Decoding is total (R71): the one thing refused, by name, is a
number that has a 1 above wire `CMD_W - 1` and so is no command word at all. -/

namespace Sys2Proof

/-- The opcode map of R61: `op[1]` selects the unit, `op[0]` the direction; no opcode is unassigned. -/
def decodeWires (c : CmdWires) : Instr :=
  match c.op.toNat with
  | 0 => .crcEnc c.a c.b
  | 1 => .crcVfy c.a c.b
  | 2 => .hamEnc c.a c.b
  | _ => .hamDec c.a c.b

/-- The wires that carry a command (R61, R62). -/
def encodeWires : Instr → CmdWires
  | .crcEnc a b => { op := 0b00#2, a := a, b := b }
  | .crcVfy a b => { op := 0b01#2, a := a, b := b }
  | .hamEnc a b => { op := 0b10#2, a := a, b := b }
  | .hamDec a b => { op := 0b11#2, a := a, b := b }

/-- Why a number is no command word: a wire above `CMD_W - 1` would have to carry a 1 (log 12). -/
inductive DecodeError where
  | widerThanCommand
deriving DecidableEq, Repr

/-- The fields of the flattened command word `cmd` (R63), for capacity `cap`. -/
def wordFields (cap w : Nat) : CmdWires :=
  { op := BitVec.ofNat 2 (slice w 0 2)
    a := { len := slice w 2 (lenW cap)
           bits := slice w (lenW cap + 2) cap }
    b := { len := slice w (lenW cap + cap + 2) (lenW cap)
           bits := slice w (2 * lenW cap + cap + 2) cap } }

/-- The decoder of a flattened command word for capacity `cap` (R63, R71). -/
def decodeWord (cap w : Nat) : Except DecodeError Instr :=
  if w < 2 ^ cmdW cap then .ok (decodeWires (wordFields cap w)) else .error .widerThanCommand

/-- The flattened command word of the wires `c`: each field at its place of R63. For fields that fit their wires;
a field too wide for them, for which `zext_N` is not defined (00_scope.md R7), is added unmasked and runs into the
next field (DESIGN CHOICE, log 19; no step uses this word). -/
def wiresWord (cap : Nat) (c : CmdWires) : Nat :=
  c.op.toNat
    + c.a.len * 2 ^ 2
    + c.a.bits * 2 ^ (lenW cap + 2)
    + c.b.len * 2 ^ (lenW cap + cap + 2)
    + c.b.bits * 2 ^ (2 * lenW cap + cap + 2)

/-- The encoder: the flattened command word of a command that fits its wires. -/
def encodeWord (cap : Nat) (i : Instr) : Nat := wiresWord cap (encodeWires i)

/-- The capacity for which opcode_table.json numbers its wires (R63: `CAP = 16`, `CMD_W = 44`). -/
def tableCap : Nat := 16

/-- The word an opcode-table row's bits stand for: the bits above `nbits` are 0. -/
def tableWord (nbits w : Nat) : Nat := w % 2 ^ nbits

/-- The command the decoder reads from a word numbered as opcode_table.json numbers it. -/
def decodeTableWord (nbits w : Nat) : Option Instr := (decodeWord tableCap (tableWord nbits w)).toOption

end Sys2Proof
end

