-- ==== Sys2Proof/Machine/Sequencer.lean ====
section
/-! DEFINITION. The core at the pace of micro-steps (10_state.md R34, R35): acceptance into BUSY, and one loop
iteration of the command's algorithm at a time (the granularity of 70_reset_and_hazards.md R179). The
latch updates are those the meanings use; only the order is spelled out here. -/

namespace Sys2Proof.Machine

/-- The command a BUSY core works on: what `OP`, `A`, `B` hold (R25, R50). -/
def State.captured (s : State) : Instr := decodeWires { op := s.op, a := s.a, b := s.b }

/-- After a change of `R`: go on searching, or leave the search for placement (R126) or the checks (R130). A search
under a CRC opcode, which no run reaches, is taken for a decode (DESIGN CHOICE, log 22). -/
def State.settleSearch (s : State) : State :=
  if s.op = 0b10#2 then
    if encShort s.a.len s.ham.r then { s with stage := .search }
    else { s with ham := s.ham.openPlacement (s.a.len + s.ham.r), stage := .place 1 }
  else
    if decShort s.a.len s.ham.r then { s with stage := .search }
    else { s with ham := s.ham.openChecks, stage := .check 0 1 }

/-- The start of a valid command (R34): the working latches of the addressed unit initialised (R83,
R120, R121, R130) and `PHASE <- BUSY`. -/
def State.launch (i : Instr) (s : State) : State :=
  match i with
  | .crcEnc a b =>
    { s with div := .load (padded a.value b.value) b.value.length, stage := .divide, phase := .busy }
  | .crcVfy a b => { s with div := .load a.value b.value.length, stage := .divide, phase := .busy }
  | .hamEnc _ _ => { s with ham := { s.ham with r := 1 }, phase := .busy }.settleSearch
  | .hamDec a _ => { s with ham := { s.ham with r := 1, cw := a.value }, phase := .busy }.settleSearch

/-- Acceptance (R34): capture, check, then the fault response or the start of the algorithm. -/
def accept (i : Instr) (s : State) : State :=
  let c := encodeWires i
  let t := s.capture c.op c.a c.b
  if invalid s.cap c.op c.a.len c.b.len then t.reject else t.launch i

/-- The response the divider's final step gives (R85, R86, R100, R102). A division under a Hamming opcode, which no run
reaches, is taken for `CRC_VFY` (DESIGN CHOICE, log 22). -/
def State.divideResponse (s : State) : Response :=
  let rem := s.div.remainder s.b.value
  if s.op = 0b00#2 then .crcEnc s.a.value rem else .crcVfy rem

/-- One micro-step of a BUSY core (R35); in any other phase nothing happens. A BUSY core with no algorithm in
progress, which no run reaches, starts its captured command over, so that it too is no stuck state (R180;
log 18). -/
def microStep (s : State) : State :=
  match s.phase with
  | .idle => s
  | .done => s
  | .busy =>
    match s.stage with
    | .rest => accept s.captured s
    | .divide =>
      if s.div.pick < s.div.divd.length then { s with div := s.div.iterate s.b.value }
      else s.answer s.divideResponse
    | .search => { s with ham := { s.ham with r := s.ham.r + 1 } }.settleSearch
    | .place pos =>
      { s with ham := s.ham.placeAt s.a.value pos
               stage := if pos < s.a.len + s.ham.r then .place (pos + 1) else .parity 0 1 }
    | .parity i j =>
      let m := s.a.len + s.ham.r
      let h := (if j = 1 then s.ham.openGroup i else s.ham).parityVisit i j
      if j < m then { s with ham := h, stage := .parity i (j + 1) }
      else
        let g := h.closeParity i
        if i + 1 < g.r then { s with ham := g, stage := .parity (i + 1) 1 }
        else { s with ham := g }.answer (.hamEnc g.cw)
    | .check i j =>
      let h := (if j = 1 then s.ham.openGroup i else s.ham).checkVisit i j
      if j < s.a.len then { s with ham := h, stage := .check i (j + 1) }
      else
        let g := h.closeCheck i
        { s with ham := g, stage := if i + 1 < g.r then .check (i + 1) 1 else .correct }
    | .correct => s.answer (.hamDec s.ham.cw s.ham.errAcc)

/-- `k` micro-steps. -/
def work : Nat → State → State
  | 0, s => s
  | k + 1, s => work k (microStep s)

/-- The reference step counts of R179, for valid commands; for an invalid one the number means nothing (log 22). -/
def referenceSteps : Instr → Nat
  | .crcEnc a _ => a.len
  | .crcVfy a b => a.len - b.len + 1
  | .hamEnc a _ => (rEnc a.len - 1) + (a.len + rEnc a.len) + rEnc a.len * (a.len + rEnc a.len)
  | .hamDec a _ => (rDec a.len - 1) + rDec a.len * a.len + 1

end Sys2Proof.Machine
end

