-- ==== Sys2Proof/Machine/Handshake.lean ====
section
/-! DEFINITION. One step of the machine, phase by phase (10_state.md section 6; 70_reset_and_hazards.md R170,
R174 to R176): the host's wires are sampled, reset has priority, then accept, step or take. -/

namespace Sys2Proof.Machine

/-- The host's move of this step is used up. -/
def State.consume (s : State) : State := { s with inputs := s.inputs.tail }

/-- The commands presented since the last acceptance or reset, with the one on the wires now (R174, log 6);
no repeats. -/
def State.candidates (s : State) (c : CmdWires) : List CmdWires :=
  if c ∈ s.presented then s.presented else s.presented ++ [c]

/-- The command an acceptance captures: the one presented, where the host held its wires (R174). Where it
did not, one of the presented ones, and which one is a FREE VALUE (U5, log 6). -/
def State.choose (s : State) (c : CmdWires) : CmdWires :=
  match s.candidates c with
  | [x] => x
  | l => l.getD (Config.pickPresented s.draws % l.length) c

/-- How many free values are used up once `c` is captured. -/
def State.drawsAfter (s : State) (c : CmdWires) : Nat :=
  match s.candidates c with
  | [_] => s.draws
  | _ => s.draws + 1

/-- A presented command that is not accepted (R175) is neither captured nor queued. What was on the wires
is remembered only to tell whether the host holds them (R174). -/
def State.notePresented (s : State) : State :=
  { s with presented := if s.now.cmdValid then s.candidates s.now.cmd else s.presented }

/-- The state in which a captured command starts: the move used up, no command left presented. -/
def State.opened (s : State) : State :=
  { s.consume with presented := [], draws := s.drawsAfter s.now.cmd }

/-- A step with `rst` asserted (R170): no accept, no step, no take. -/
def onReset (s : State) : State := s.consume.resetLatches

/-- A step in IDLE: a presented command is accepted (R34) and answered at once (R35, merged) or worked on. -/
def onIdle (s : State) : Host.Outcome State Fault Refusal :=
  if s.now.cmdValid then
    let i := decodeWires (s.choose s.now.cmd)
    match s.now.pace with
    | .atOnce => exec i s.opened
    | .ticks k => .next (work k (accept i s.opened))
  else .next s.consume

/-- A step in BUSY (R35): some micro-steps, or `RSP` is written with `exec` of the captured command. -/
def onBusy (s : State) : Host.Outcome State Fault Refusal :=
  match s.now.pace with
  | .atOnce => exec s.captured s.notePresented.consume
  | .ticks k => .next (work k s.notePresented.consume)

/-- A step in DONE (R36, R176): the response is held until it is taken. -/
def onDone (s : State) : State :=
  if s.now.rspReady then s.notePresented.consume.take else s.notePresented.consume

/-- The move of a host that presents the command `c` to a core that answers at once. -/
def Tick.present (c : CmdWires) : Tick :=
  { rst := false, cmdValid := true, cmd := c, rspReady := false, pace := .atOnce }

/-- `s` with an IDLE core and a host whose next move presents the command `c`, and no command presented
before it. -/
def State.presenting (s : State) (c : CmdWires) : State :=
  { s with phase := .idle, presented := [], inputs := Tick.present c :: s.inputs }

end Sys2Proof.Machine
end

