-- ==== Sys2Proof/Machine/Step.lean ====
section
/-! DEFINITION. The step function. -/

namespace Sys2Proof.Machine

/-- One step: the wires of one host move, with `rst` above everything (70_reset_and_hazards.md R170). -/
def step (s : State) : Host.Outcome State Fault Refusal :=
  if s.now.rst then .next (onReset s)
  else
    match s.phase with
    | .idle => onIdle s
    | .busy => onBusy s
    | .done => .next (onDone s)

/-- `s` with the command that the word `w` of `nbits` bits stands for, numbered as opcode_table.json
numbers it, on the command wires of an IDLE core: the next step accepts and runs it (log 3). The word is read with
the widths of `CAP = 16` at every capacity of `s` (DESIGN CHOICE, log 22). -/
def State.withFetchWord (s : State) (nbits w : Nat) : State :=
  s.presenting (wordFields tableCap (tableWord nbits w))

end Sys2Proof.Machine
end

