-- ==== Sys2Proof/Machine/Text.lean ====
section
/-! DEFINITION. The textual form of commands and responses (30_encoding.md R72), as lists of characters, and its
reader, which refuses by name what is not in the form (U11, D27; log 16). -/

namespace Sys2Proof.Machine

/-- The mnemonics of R61. -/
def mnemonic : Instr → List Char
  | .crcEnc _ _ => ['C', 'R', 'C', '_', 'E', 'N', 'C']
  | .crcVfy _ _ => ['C', 'R', 'C', '_', 'V', 'F', 'Y']
  | .hamEnc _ _ => ['H', 'A', 'M', '_', 'E', 'N', 'C']
  | .hamDec _ _ => ['H', 'A', 'M', '_', 'D', 'E', 'C']

/-- A BitString literal (R3, R72): the bits left to right in double quotes. -/
def literal (s : BitString) : List Char := '"' :: (s.map (fun b => if b then '1' else '0') ++ ['"'])

/-- A command line (R72): mnemonic, operand A, and for the CRC commands operand B. An operand whose length exceeds
`CAP` is written with the elements `Operand.value` gives it (DESIGN CHOICE, log 21). -/
def commandLine (i : Instr) : List Char :=
  match i with
  | .crcEnc a b => mnemonic i ++ ' ' :: (literal a.value ++ [',', ' '] ++ literal b.value)
  | .crcVfy a b => mnemonic i ++ ' ' :: (literal a.value ++ [',', ' '] ++ literal b.value)
  | .hamEnc a _ => mnemonic i ++ ' ' :: literal a.value
  | .hamDec a _ => mnemonic i ++ ' ' :: literal a.value

/-- Why a text is no command line. -/
inductive TextError where
  /-- a character of a literal that is neither 0, 1 nor the closing quote -/
  | notABit (c : Char)
  /-- a literal that is not closed -/
  | unclosed
  /-- no literal where one must stand -/
  | noLiteral
  /-- a word that is no mnemonic of R61 -/
  | noMnemonic
  /-- a CRC command without its second operand -/
  | noKey
  /-- characters after the last operand -/
  | trailing
deriving DecidableEq, Repr

/-- The bits of a literal up to its closing quote, and what follows it. -/
def readBits : List Char → Except TextError (BitString × List Char)
  | [] => .error .unclosed
  | '"' :: rest => .ok ([], rest)
  | '0' :: rest => (readBits rest).map (fun p => (false :: p.1, p.2))
  | '1' :: rest => (readBits rest).map (fun p => (true :: p.1, p.2))
  | c :: _ => .error (.notABit c)

/-- A literal at the front of a text. -/
def readLiteral : List Char → Except TextError (BitString × List Char)
  | '"' :: rest => readBits rest
  | _ => .error .noLiteral

/-- What follows the word `w` and a space at the front of a text. -/
def afterWord : List Char → List Char → Option (List Char)
  | [], ' ' :: rest => some rest
  | [], _ => none
  | _ :: _, [] => none
  | w :: ws, c :: cs => if w = c then afterWord ws cs else none

/-- The operands of a command line: one literal, or two with a comma and a space between them. -/
def readOperands (text : List Char) : Except TextError (Operand × Option Operand) :=
  match readLiteral text with
  | .error e => .error e
  | .ok (a, []) => .ok (.ofBits a, none)
  | .ok (a, ',' :: ' ' :: rest) =>
    match readLiteral rest with
    | .error e => .error e
    | .ok (b, []) => .ok (.ofBits a, some (.ofBits b))
    | .ok (_, _ :: _) => .error .trailing
  | .ok (_, _ :: _) => .error .trailing

/-- Operand B of a Hamming command that is written without one: nothing is driven (R69). -/
def noOperand : Operand := { len := 0, bits := 0 }

/-- A CRC command from its operands: both must be written. -/
def withKey (mk : Operand → Operand → Instr) : Operand × Option Operand → Except TextError Instr
  | (a, some b) => .ok (mk a b)
  | (_, none) => .error .noKey

/-- A Hamming command from its operands: a written B is driven on the wires and ignored (R69). -/
def withoutKey (mk : Operand → Operand → Instr) (p : Operand × Option Operand) : Except TextError Instr :=
  .ok (mk p.1 (p.2.getD noOperand))

/-- The reader of a command line (R72). -/
def readCommand (text : List Char) : Except TextError Instr :=
  match afterWord ['C', 'R', 'C', '_', 'E', 'N', 'C'] text with
  | some rest => (readOperands rest).bind (withKey .crcEnc)
  | none =>
    match afterWord ['C', 'R', 'C', '_', 'V', 'F', 'Y'] text with
    | some rest => (readOperands rest).bind (withKey .crcVfy)
    | none =>
      match afterWord ['H', 'A', 'M', '_', 'E', 'N', 'C'] text with
      | some rest => (readOperands rest).bind (withoutKey .hamEnc)
      | none =>
        match afterWord ['H', 'A', 'M', '_', 'D', 'E', 'C'] text with
        | some rest => (readOperands rest).bind (withoutKey .hamDec)
        | none => .error .noMnemonic

/-- The status names of R67. -/
def statusName : Status → List Char
  | .ok => ['O', 'K']
  | .invalidInput => ['I', 'N', 'V', 'A', 'L', 'I', 'D', '_', 'I', 'N', 'P', 'U', 'T']
  | .syndromeRange => ['S', 'Y', 'N', 'D', 'R', 'O', 'M', 'E', '_', 'R', 'A', 'N', 'G', 'E']

/-- The fields a command produces (R65, R72), by name; a rejected command produces none. A response that is not of
this command is written with its fields all the same (DESIGN CHOICE, log 22). -/
def producedFields (i : Instr) (r : Response) : List Char :=
  if r.status = .invalidInput then []
  else
    match i with
    | .crcEnc _ _ => [' ', 'R', '0', '='] ++ literal r.r0 ++ [' ', 'R', '1', '='] ++ literal r.r1
    | .crcVfy _ _ => [' ', 'f', 'l', 'a', 'g', '=', if r.flag then '1' else '0']
    | .hamEnc _ _ => [' ', 'R', '0', '='] ++ literal r.r0
    | .hamDec _ _ => [' ', 'R', '0', '='] ++ literal r.r0 ++ [' ', 'e', 'r', 'r', 'p', 'o', 's', '='] ++ Nat.toDigits 10 r.errpos

/-- A response as R72 writes it after its command: the arrow, the status, the produced fields. -/
def responseText (i : Instr) (r : Response) : List Char :=
  ['-', '>', ' '] ++ statusName r.status ++ producedFields i r

end Sys2Proof.Machine
end

