-- ==== Sys2Proof/Safety.lean ====
section
/-! DEFINITION. The terms claims use: what a host observes of a run, what it means for a state to be one the
core can be in, and a BitString as a polynomial. -/

namespace Sys2Proof.Machine

/-- The response to a command alone (10_state.md R20: `exec : Command -> Response`): what a core fresh from
reset answers. -/
def responseOf (cap : Capacity) (i : Instr) : Response :=
  match exec i (State.resetWith cap) with
  | .next t => t.rsp
  | .fault _ => .zero
  | .refused _ => .zero

/-- A core in state `s` answers the command `i` with `r`. -/
def Answers (s : State) (i : Instr) (r : Response) : Prop :=
  ∃ t, exec i s = .next t ∧ t.phase = .done ∧ t.rsp = r

/-! ### Validity, as each command's own rule states it -/

/-- R100: `1 <= len(data) <= CAP`, `2 <= len(key) <= CAP`, `len(data) + len(key) - 1 <= CAP`. -/
def validCrcEnc (cap : Capacity) (data key : Nat) : Bool :=
  decide (1 ≤ data) && cap.admits data && decide (2 ≤ key) && cap.admits key && cap.admits (data + key - 1)

/-- R102: `1 <= len(codeword) <= CAP`, `2 <= len(key) <= CAP`, `len(codeword) >= len(key)`. -/
def validCrcVfy (cap : Capacity) (codeword key : Nat) : Bool :=
  decide (1 ≤ codeword) && cap.admits codeword && decide (2 ≤ key) && cap.admits key && decide (key ≤ codeword)

/-- R128: `1 <= n <= CAP` and `n + r_enc(n) <= CAP`. -/
def validHamEnc (cap : Capacity) (n : Nat) : Bool :=
  decide (1 ≤ n) && cap.admits n && cap.admits (n + rEnc n)

/-- R132: `1 <= m <= CAP`. -/
def validHamDec (cap : Capacity) (m : Nat) : Bool := decide (1 ≤ m) && cap.admits m

/-- Whether a command is valid. -/
def validInstr (cap : Capacity) : Instr → Bool
  | .crcEnc a b => validCrcEnc cap a.len b.len
  | .crcVfy a b => validCrcVfy cap a.len b.len
  | .hamEnc a _ => validHamEnc cap a.len
  | .hamDec a _ => validHamDec cap a.len

/-! ### What a host observes -/

/-- The command this step accepts (R34): one is presented, `cmd_ready` is 1. -/
def State.acceptedNow (s : State) : Option Instr :=
  if s.cmdReady && s.now.cmdValid then some (decodeWires (s.choose s.now.cmd)) else none

/-- The response this step's host takes (R36): one is offered and `rsp_ready` is 1. -/
def State.takenNow (s : State) : Option Response :=
  if s.rspValid && s.now.rspReady then some s.rsp else none

/-- The events a host takes part in. -/
inductive Event where
  | reset
  | accepted (i : Instr)
  | took (r : Response)
deriving DecidableEq, Repr

/-- The events of one step, at most one. -/
def State.eventsNow (s : State) : List Event :=
  if s.now.rst then [.reset]
  else s.acceptedNow.toList.map .accepted ++ s.takenNow.toList.map .took

/-- The events of `k` steps, in order. -/
def events : Nat → State → List Event
  | 0, _ => []
  | k + 1, s =>
    s.eventsNow ++
      match step s with
      | .next t => events k t
      | .fault _ => []
      | .refused _ => []

/-- Whether a history is one in which every response taken is the one to the command outstanding (R20), no command
is answered twice, and none is accepted before the one outstanding is answered (R36, R47) or a reset drops it
(R170). The first argument is the command outstanding; a history may end with one. -/
def wellAnswered (cap : Capacity) : Option Instr → List Event → Bool
  | _, [] => true
  | _, .reset :: es => wellAnswered cap none es
  | none, .accepted i :: es => wellAnswered cap (some i) es
  | none, .took _ :: _ => false
  | some _, .accepted _ :: _ => false
  | some i, .took r :: es => decide (r = responseOf cap i) && wellAnswered cap none es

/-- The command outstanding in a state: accepted, its response not yet taken. In DONE it is read from `OP`, `A`, `B`,
which hold it by the model's choice (log 8). -/
def State.outstanding (s : State) : Option Instr :=
  match s.phase with
  | .idle => none
  | .busy => some s.captured
  | .done => some s.captured

/-! ### The states a core can be in -/

/-- The check of R151 on the captured command. -/
def State.capturedInvalid (s : State) : Bool := invalid s.cap s.op s.a.len s.b.len

/-- A state the protocol can be in. BUSY: the captured command is valid and the latches are those of its
algorithm after fewer micro-steps than it takes. DONE: `RSP` is the response to the captured command, read from `OP`,
`A`, `B`, which R25 gives no meaning there and which hold it by the model's choice (log 8). -/
def State.Coherent (s : State) : Prop :=
  match s.phase with
  | .idle => True
  | .busy =>
    s.capturedInvalid = false ∧
      ∃ (k : Nat) (before : State), k < referenceSteps s.captured ∧ s = work k (accept s.captured before)
  | .done => s.rsp = responseOf s.cap s.captured

/-- Every latch holds a value its width can hold (R25 to R28). -/
def State.latchesFit (s : State) : Bool :=
  s.a.wellFormed s.cap && s.b.wellFormed s.cap
    && s.cap.admits s.div.divd.length && s.cap.admits s.div.tmp.length && s.cap.holdsLen s.div.pick
    && s.cap.holdsLen s.ham.r && s.cap.admits s.ham.cw.length && s.cap.holdsLen s.ham.pos
    && s.cap.holdsLen s.ham.didx && s.cap.holdsLen s.ham.pi && s.cap.holdsLen s.ham.j
    && s.cap.holdsPos s.ham.errAcc
    && s.cap.admits s.rsp.r0.length && s.cap.admits s.rsp.r1.length && s.cap.holdsPos s.rsp.errpos

/-- Every command the host presents or has presented fits its wires (R63). -/
def State.wiresFit (s : State) : Bool :=
  s.inputs.all (fun t => t.cmd.wellFormed s.cap) && s.presented.all (fun c => c.wellFormed s.cap)

/-- The host has kept its command wires as they are now since it raised `cmd_valid` (R174). -/
def State.wiresHeld (s : State) : Bool := s.presented.all (fun c => decide (c = s.now.cmd))

/-- A response that fits the response wires (R64, R66). -/
def Response.fits (cap : Capacity) (r : Response) : Bool :=
  cap.admits r.r0.length && cap.admits r.r1.length && cap.holdsPos r.errpos

/-! ### Polynomials -/

/-- `V(s)` (40_gf2_divider.md R91): the sum over `i` of `s[i] * x^(k - i)`, coefficients in GF(2). -/
noncomputable def poly (s : BitString) : Polynomial (ZMod 2) :=
  ∑ i ∈ Finset.range s.length, if bitAt s (i + 1) then Polynomial.X ^ (s.length - (i + 1)) else 0

/-- `K' = "1" ++ K[2..L]` (R91): the key with its leading bit set; of an empty key the model makes "1" (log 22). -/
def monicKey (k : BitString) : BitString := true :: k.tail

/-- The bitwise exclusive-or of the positions that hold a 1 (42_hamming_commands.md R139). -/
def xorOfOnes (cw : BitString) : Nat :=
  ((positions cw.length).filter (fun j => bitAt cw j)).foldl (fun acc j => acc ^^^ j) 0

/-- The exclusive-or of the bits of `cw` at the positions of `ps`. -/
def xorAt (cw : BitString) (ps : List Nat) : Bit := ps.foldl (fun acc j => Bool.xor acc (bitAt cw j)) false

end Sys2Proof.Machine
end

