-- ==== Sys2Proof/Certificates/Slice0/Obligations.lean ====
section
/-! DEFINITION. The statements for the provers. Each docstring names the rules of spec/ it formalises; what a
statement rests on beyond them (a log entry) is said there. -/

open Sys2Proof Sys2Proof.Machine

/-! ## Encoding

The statements hold at every number as `CAP`; at those below 3, no legal capacity (D4), they speak of the model's own
widths (log 13, log 22). -/

/-- R63: for every capacity, the flattened word of a command that fits its wires decodes to that command,
with every operand at every value its fields admit. -/
def Obligations.DecodeOfEncodedCommand : Prop :=
  ∀ (cap : Nat) (i : Instr), i.wellFormed (.bounded cap) = true →
    encodeWord cap i < 2 ^ cmdW cap ∧ decodeWord cap (encodeWord cap i) = .ok i

/-- R63, R71: every word of `CMD_W` wires decodes, to a command that fits its wires and whose own word is that
word; so no wire of a word is dropped and two words never stand for one command. -/
def Obligations.EncodeOfDecodedWord : Prop :=
  ∀ (cap w : Nat), w < 2 ^ cmdW cap →
    ∃ i, decodeWord cap w = .ok i ∧ i.wellFormed (.bounded cap) = true ∧ encodeWord cap i = w

/-- R61, R63: the opcode wires `cmd & 0x3` alone select the command; all four values are defined. -/
def Obligations.OpcodeWiresSelectCommand : Prop :=
  ∀ (cap w : Nat), w < 2 ^ cmdW cap →
    ∃ a b : Operand,
      (w &&& 3 = 0 → decodeWord cap w = .ok (.crcEnc a b)) ∧
      (w &&& 3 = 1 → decodeWord cap w = .ok (.crcVfy a b)) ∧
      (w &&& 3 = 2 → decodeWord cap w = .ok (.hamEnc a b)) ∧
      (w &&& 3 = 3 → decodeWord cap w = .ok (.hamDec a b))

/-- R61, R63: the words of 95_test_vectors.md V9.3 for `CRC_ENC "1011001", "1011"`, `CRC_VFY "1011001011", "1011"`,
`HAM_ENC "1011001"` and `HAM_DEC "10101111001"`, one of each opcode, decode to those commands. -/
def Obligations.VectorWordsDecode : Prop :=
  decodeTableWord 48 0x000b2002c9c = some (.crcEnc ⟨7, 0x0059⟩ ⟨4, 0x000b⟩) ∧
  decodeTableWord 48 0x000b20165a9 = some (.crcVfy ⟨10, 0x02cb⟩ ⟨4, 0x000b⟩) ∧
  decodeTableWord 48 0x00000002c9e = some (.hamEnc ⟨7, 0x0059⟩ ⟨0, 0⟩) ∧
  decodeTableWord 48 0x0000002bcaf = some (.hamDec ⟨11, 0x0579⟩ ⟨0, 0⟩)

/-- R66: the flattened word of a response that fits its wires is a word of `RSP_W` wires, reads back as that
response, and never shows the status code 11 (R67). -/
def Obligations.ResponseWordReadsBack : Prop :=
  ∀ (cap : Nat) (r : Response), r.fits (.bounded cap) = true →
    encodeResponse cap r < 2 ^ rspW cap ∧ encodeResponse cap r &&& 3 ≠ 3 ∧
      decodeResponse cap (encodeResponse cap r) = .ok r

/-- R72: the text of a CRC command reads back as that command (its pad wires 0), and that of a Hamming command
as the command with nothing driven on operand B. -/
def Obligations.CommandLineReadsBack : Prop :=
  ∀ x y : BitString,
    readCommand (commandLine (.crcEnc (.ofBits x) (.ofBits y))) = .ok (.crcEnc (.ofBits x) (.ofBits y)) ∧
    readCommand (commandLine (.crcVfy (.ofBits x) (.ofBits y))) = .ok (.crcVfy (.ofBits x) (.ofBits y)) ∧
    readCommand (commandLine (.hamEnc (.ofBits x) (.ofBits y))) = .ok (.hamEnc (.ofBits x) ⟨0, 0⟩) ∧
    readCommand (commandLine (.hamDec (.ofBits x) (.ofBits y))) = .ok (.hamDec (.ofBits x) ⟨0, 0⟩)

/-! ## Operands and wires -/

/-- R41: a BitString of length `k` is carried with `x_len = k` and element `i` on wire `k - i`, in both
directions. R41 is about `k <= CAP`; that longer ones are read the same way, off the natural on the wires, is the
model's choice (log 21). -/
def Obligations.BitStringElementsOnWires : Prop :=
  (∀ x : Operand, x.value.length = x.len ∧
    ∀ i, 1 ≤ i → i ≤ x.len → bitAt x.value i = x.bits.testBit (x.len - i)) ∧
  (∀ s : BitString, (Operand.ofBits s).len = s.length ∧ (Operand.ofBits s).value = s ∧
    ∀ i, 1 ≤ i → i ≤ s.length → (Operand.ofBits s).bits.testBit (s.length - i) = bitAt s i)

/-- R42: the core ignores operand pad wires: two commands that differ only there get the same response; and
on a result port every pad wire is 0. -/
def Obligations.PadWiresIgnoredAndDrivenZero : Prop :=
  (∀ (s : State) (c d : CmdWires) (r : Response),
    c.op = d.op → c.a.len = d.a.len → c.b.len = d.b.len →
    c.a.bits % 2 ^ c.a.len = d.a.bits % 2 ^ d.a.len →
    c.b.bits % 2 ^ c.b.len = d.b.bits % 2 ^ d.b.len →
    Answers s (decodeWires c) r → Answers s (decodeWires d) r) ∧
  (∀ (s : BitString) (k : Nat), s.length ≤ k → (Operand.ofBits s).bits.testBit k = false)

/-- R69: the Hamming commands ignore operand B entirely, a length above `CAP` included. -/
def Obligations.HammingIgnoresOperandB : Prop :=
  ∀ (s : State) (a b b' : Operand) (r : Response),
    (Answers s (.hamEnc a b) r → Answers s (.hamEnc a b') r) ∧
    (Answers s (.hamDec a b) r → Answers s (.hamDec a b') r)

/-! ## Validity and the fault response -/

/-- R151: the causes of `InvalidInput`, each command with its own. -/
def Obligations.InvalidCausesByCommand : Prop :=
  ∀ (cap : Capacity) (x y : Nat),
    (invalid cap 0b00#2 x y = true ↔
      x = 0 ∨ ¬ cap.admits x ∨ y < 2 ∨ ¬ cap.admits y ∨ ¬ cap.admits (x + y - 1)) ∧
    (invalid cap 0b01#2 x y = true ↔ x = 0 ∨ ¬ cap.admits x ∨ y < 2 ∨ ¬ cap.admits y ∨ x < y) ∧
    (invalid cap 0b10#2 x y = true ↔ x = 0 ∨ ¬ cap.admits x ∨ ¬ cap.admits (x + rEnc x)) ∧
    (invalid cap 0b11#2 x y = true ↔ x = 0 ∨ ¬ cap.admits x)

/-- R153, R34: an invalid command, of any of the four, is captured and answered with the all-zero fault response
of status `INVALID_INPUT`; nothing else changes, no working latch among it. The response word is 1. That `OP`, `A`, `B`
still hold the command in DONE is the model's choice (log 8). -/
def Obligations.InvalidCommandOnlyAnswersFault : Prop :=
  ∀ (i : Instr) (s : State), validInstr s.cap i = false →
    exec i s = .next { s with
      op := (encodeWires i).op, a := (encodeWires i).a, b := (encodeWires i).b
      rsp := { status := .invalidInput, flag := false, r0 := [], r1 := [], errpos := 0 }
      phase := .done, stage := .rest } ∧
    ∀ cap, encodeResponse cap Response.invalid = 1

/-! ## The CRC commands -/

/-- R100: a valid `CRC_ENC` answers OK with `R0 = data ++ rem`, `R1 = rem`, for `rem` the remainder of
`data ++ zeros(L - 1)`. Its frame: besides `OP`, `A`, `B`, `RSP` and `PHASE` only the divider's latches change. What
the hidden latches hold once the core is in DONE (`OP`, `A`, `B` the command, `DIVD` the dividend, `PICK` its length,
the Hamming latches as they were) is the model's choice (log 8): R25, R32 and U6 give them no meaning outside BUSY. -/
def Obligations.CrcEncAnswersCodeword : Prop :=
  ∀ (s : State) (a b : Operand), validCrcEnc s.cap a.len b.len = true →
    let d := a.value ++ zeros (b.len - 1)
    ∃ tmp, exec (.crcEnc a b) s = .next { s with
      op := 0b00#2, a := a, b := b
      div := { divd := d, tmp := tmp, pick := a.len + b.len - 1 }
      rsp := { status := .ok, flag := false, r0 := a.value ++ mod2div d b.value, r1 := mod2div d b.value, errpos := 0 }
      phase := .done, stage := .rest }

/-- R102: a valid `CRC_VFY` answers OK with `flag = 1` exactly when the remainder of the codeword is all zero,
and returns nothing else. Its frame as for `CRC_ENC`, with the codeword as the dividend. What the hidden latches hold
once the core is in DONE is the model's choice (log 8): R25, R32 and U6 give them no meaning outside BUSY. -/
def Obligations.CrcVfyAnswersVerdict : Prop :=
  ∀ (s : State) (a b : Operand), validCrcVfy s.cap a.len b.len = true →
    ∃ tmp, exec (.crcVfy a b) s = .next { s with
      op := 0b01#2, a := a, b := b
      div := { divd := a.value, tmp := tmp, pick := a.len }
      rsp := { status := .ok, flag := decide (mod2div a.value b.value = zeros (b.len - 1))
               r0 := [], r1 := [], errpos := 0 }
      phase := .done, stage := .rest }

/-- R101: the shape of the `CRC_ENC` result. -/
def Obligations.CrcEncResultShape : Prop :=
  ∀ (s : State) (a b : Operand) (r : Response), validCrcEnc s.cap a.len b.len = true →
    Answers s (.crcEnc a b) r →
    r.r1.length = b.len - 1 ∧ r.r0.length = a.len + b.len - 1 ∧
      sub r.r0 1 a.len = a.value ∧ sub r.r0 (a.len + 1) r.r0.length = r.r1

/-- R103: what `CRC_ENC` returns verifies, for every key of length at least 2, on any core of the same
capacity. -/
def Obligations.CrcRoundTripVerifies : Prop :=
  ∀ (s t : State) (a b : Operand) (r : Response), t.cap = s.cap →
    validCrcEnc s.cap a.len b.len = true → Answers s (.crcEnc a b) r →
    validCrcVfy t.cap r.r0.length b.len = true ∧
      Answers t (.crcVfy (.ofBits r.r0) b) { status := .ok, flag := true, r0 := [], r1 := [], errpos := 0 }

/-- R104: `CRC_VFY` gives a verdict and nothing else. An error pattern on a verifying codeword goes undetected
exactly when it would itself verify, that is when it is a multiple of the key's polynomial; and the key's own
bits, leading bit set, at any place inside the codeword are such a pattern. -/
def Obligations.CrcUndetectedPatterns : Prop :=
  ∀ (cap : Capacity) (c e k : BitString), cap.admits c.length = true →
    2 ≤ k.length → k.length ≤ c.length → e.length = c.length →
    let verdict := fun x : BitString => responseOf cap (.crcVfy (.ofBits x) (.ofBits k))
    (verdict e = { status := .ok, flag := isZero (mod2div e k), r0 := [], r1 := [], errpos := 0 }) ∧
    ((verdict c).flag = true →
      ((verdict (xorBits c e)).flag = true ↔ mod2div e k = zeros (k.length - 1)) ∧
      ((verdict (xorBits c e)).flag = true ↔ poly (monicKey k) ∣ poly e)) ∧
    ∀ p q : Nat, p + k.length + q = c.length →
      (verdict (zeros p ++ monicKey k ++ zeros q)).flag = true

/-- R105: a single flip of a verifying codeword is detected if the key has a 1 below its leading bit; if it has
none, exactly the flips of the last `W` positions are; the flip of the last position always is. -/
def Obligations.CrcSingleFlipDetection : Prop :=
  ∀ (cap : Capacity) (c k : BitString) (p : Nat), cap.admits c.length = true →
    2 ≤ k.length → k.length ≤ c.length → 1 ≤ p → p ≤ c.length →
    let flag := fun x : BitString => (responseOf cap (.crcVfy (.ofBits x) (.ofBits k))).flag
    flag c = true →
    (isZero k.tail = false → flag (flipAt c p) = false) ∧
    (isZero k.tail = true → (flag (flipAt c p) = false ↔ c.length - (k.length - 1) < p)) ∧
    (p = c.length → flag (flipAt c p) = false)

/-- R106: complementing the leading bit of the key changes the response of neither CRC command; and the all-zero
key is no fault: it takes the last `W` bits of the dividend as the remainder. -/
def Obligations.CrcLeadingKeyBitIgnored : Prop :=
  (∀ (s : State) (a b : Operand) (r : Response), 2 ≤ b.len →
    let b' : Operand := { b with bits := b.bits ^^^ 2 ^ (b.len - 1) }
    (Answers s (.crcEnc a b) r → Answers s (.crcEnc a b') r) ∧
    (Answers s (.crcVfy a b) r → Answers s (.crcVfy a b') r)) ∧
  (∀ (d : BitString) (l : Nat), 2 ≤ l → l ≤ d.length →
    mod2div d (zeros l) = sub d (d.length - (l - 1) + 1) d.length)

/-! ## The divider -/

/-- R80, R81: `xor` element by element, at full length; the conditional divisor. At
`L = 0`, which R81 leaves out, the second clause speaks of the model's own value (log 10). -/
def Obligations.XorAndSelectByElement : Prop :=
  (∀ a b : BitString, a.length = b.length →
    (xorBits a b).length = a.length ∧
      ∀ i, 1 ≤ i → i ≤ a.length → bitAt (xorBits a b) i = Bool.xor (bitAt a i) (bitAt b i)) ∧
  (∀ t k : BitString, t.length = k.length →
    (bitAt t 1 = true → sel t k = k) ∧ (bitAt t 1 = false → sel t k = zeros k.length))

/-- R89: the leading bit of the key is never observed. -/
def Obligations.DividerNeverReadsKeyLeadingBit : Prop :=
  ∀ d t : BitString, 1 ≤ t.length → t.length + 1 ≤ d.length →
    mod2div d (false :: t) = mod2div d (true :: t)

/-- R90: the serial form equals the divider, and after `L + c` bits of the dividend its register holds the final
XOR the divider would make after `c` iterations; on a dividend shorter than the key it would give the dividend
padded on the left. -/
def Obligations.DividerEqualsSerialForm : Prop :=
  ∀ d k : BitString, 2 ≤ k.length →
    (k.length ≤ d.length → mod2divSerial d k = mod2div d k) ∧
    (∀ c, k.length + c ≤ d.length →
      mod2divSerial (d.take (k.length + c)) k =
        (DivLatches.iterations k c (.load d k.length)).remainder k) ∧
    (d.length < k.length → mod2divSerial d k = zeros (k.length - 1 - d.length) ++ d)

/-- R91: the remainder, of length `W`, is the remainder of the dividend's polynomial on division by the key's
with its leading bit set; it is the one polynomial of degree below `W` congruent to the dividend's. -/
def Obligations.DividerIsPolynomialRemainder : Prop :=
  ∀ d k : BitString, 2 ≤ k.length → k.length ≤ d.length →
    (mod2div d k).length = k.length - 1 ∧
    (poly (monicKey k)).natDegree = k.length - 1 ∧
    poly (mod2div d k) = poly d %ₘ poly (monicKey k) ∧
    (∀ q : Polynomial (ZMod 2), q.degree < (k.length - 1 : Nat) → poly (monicKey k) ∣ poly d - q →
      q = poly (mod2div d k))

/-- R92: linearity; leading zeros do not matter; the last `W` bits split off. -/
def Obligations.DividerIsLinear : Prop :=
  ∀ k : BitString, 2 ≤ k.length →
    (∀ d e : BitString, d.length = e.length → k.length ≤ d.length →
      mod2div (xorBits d e) k = xorBits (mod2div d k) (mod2div e k)) ∧
    (∀ n, k.length ≤ n → mod2div (zeros n) k = zeros (k.length - 1)) ∧
    (∀ d : BitString, k.length ≤ d.length → mod2div (false :: d) k = mod2div d k) ∧
    (∀ p t : BitString, t.length = k.length - 1 → 1 ≤ p.length →
      mod2div (p ++ t) k = xorBits (mod2div (p ++ zeros (k.length - 1)) k) t)

/-- R93: a dividend of the key's own length takes one step. -/
def Obligations.DividerOneStepWhenLengthsEqual : Prop :=
  ∀ d k : BitString, 2 ≤ k.length → d.length = k.length →
    mod2div d k = sub (xorBits d (sel d k)) 2 k.length ∧
    (bitAt d 1 = true → mod2div d k = xorBits d.tail k.tail) ∧
    (bitAt d 1 = false → mod2div d k = d.tail)

/-- R73: the host's recipe for the bare remainder from one `CRC_ENC` and an XOR of its own. -/
def Obligations.BareRemainderFromCrcEnc : Prop :=
  ∀ (s : State) (d k : BitString) (r : Response), 2 ≤ k.length → k.length ≤ d.length →
    s.cap.admits d.length = true →
    Answers s (.crcEnc (.ofBits (sub d 1 (d.length - (k.length - 1)))) (.ofBits k)) r →
    mod2div d k = xorBits r.r1 (sub d (d.length - (k.length - 1) + 1) d.length)

/-! ## The Hamming commands -/

/-- R128: a valid `HAM_ENC` answers OK with the codeword of `data`, of `n + r_enc(n)` bits. Its frame: besides `OP`,
`A`, `B`, `RSP` and `PHASE` only the Hamming unit's latches change (R27), `ERRACC` not among them. What the hidden
latches hold once the core is in DONE is the model's choice (log 8). -/
def Obligations.HamEncAnswersCodeword : Prop :=
  ∀ (s : State) (a b : Operand), validHamEnc s.cap a.len = true →
    (hamCodeword a.value).length = a.len + rEnc a.len ∧
    ∃ acc, exec (.hamEnc a b) s = .next { s with
      op := 0b10#2, a := a, b := b
      ham := { r := rEnc a.len, cw := hamCodeword a.value, pos := a.len + rEnc a.len, didx := a.len
               pi := rEnc a.len - 1, j := a.len + rEnc a.len, acc := acc, errAcc := s.ham.errAcc }
      rsp := { status := .ok, flag := false, r0 := hamCodeword a.value, r1 := [], errpos := 0 }
      phase := .done, stage := .rest }

/-- R132, R154: a valid `HAM_DEC` answers with the syndrome `e`: the word unchanged and OK for `e = 0`, position `e`
flipped and OK for `e <= m`, and otherwise the word unchanged and `SYNDROME_RANGE`. Its frame: besides `OP`, `A`,
`B`, `RSP` and `PHASE` only the Hamming unit's latches change, `POS` and `DIDX` not among them. What the hidden latches
hold once the core is in DONE is the model's choice (log 8). -/
def Obligations.HamDecAnswersCorrection : Prop :=
  ∀ (s : State) (a b : Operand), validHamDec s.cap a.len = true →
    let e := syndrome a.value
    ∃ acc, exec (.hamDec a b) s = .next { s with
      op := 0b11#2, a := a, b := b
      ham := { s.ham with r := rDec a.len, cw := a.value, pi := rDec a.len - 1, j := a.len, acc := acc, errAcc := e }
      rsp := { status := if e ≤ a.len then .ok else .syndromeRange
               flag := false
               r0 := if 1 ≤ e ∧ e ≤ a.len then flipAt a.value e else a.value
               r1 := [], errpos := e }
      phase := .done, stage := .rest }

/-- R120: `r_enc(n)` is the smallest `r >= 1` with `2^r >= n + r + 1`; it is never 1; its ranges. -/
def Obligations.EncoderParityCountIsMinimal : Prop :=
  ∀ n, 1 ≤ n →
    n + rEnc n + 1 ≤ 2 ^ rEnc n ∧ (∀ r, 1 ≤ r → r < rEnc n → 2 ^ r < n + r + 1) ∧ 2 ≤ rEnc n ∧
      ∀ r, 2 ≤ r → (rEnc n = r ↔ 2 ^ (r - 1) + 1 ≤ n + r ∧ n + r + 1 ≤ 2 ^ r)

/-- R121: `r_dec(m)` is the smallest `r` with `2^r >= m + 1`, the number of bits of the numeral of `m`. -/
def Obligations.DecoderParityCountIsNumeralWidth : Prop :=
  ∀ m, 1 ≤ m →
    m + 1 ≤ 2 ^ rDec m ∧ (∀ r, r < rDec m → 2 ^ r < m + 1) ∧
      ∀ r, 1 ≤ r → (rDec m = r ↔ 2 ^ (r - 1) ≤ m ∧ m ≤ 2 ^ r - 1)

/-- R122, R138: a codeword has `n + r_enc(n)` bits; its data positions, in increasing order, hold the data bits in
their order, so reading them gives the data back. A position is no data position exactly when it is a power of
two. -/
def Obligations.DataPositionsHoldData : Prop :=
  (∀ data : BitString, 1 ≤ data.length →
    (hamCodeword data).length = data.length + rEnc data.length ∧ extractData (hamCodeword data) = data) ∧
  (∀ m j, j ∈ dataPositions m ↔ 1 ≤ j ∧ j ≤ m ∧ ¬ ∃ i, j = 2 ^ i) ∧
  (∀ m, (dataPositions m).Pairwise (· < ·))

/-- R123: the layout on encode, (a) to (e). -/
def Obligations.EncodeLayoutFacts : Prop :=
  ∀ n, 1 ≤ n →
    let r := rEnc n
    let m := n + r
    2 ^ (r - 1) < m ∧ m + 1 ≤ 2 ^ r ∧
    ((positions m).filter isPow2 = (List.range r).map (2 ^ ·) ∧ (dataPositions m).length = n) ∧
    (isPow2 m = false ∧ 3 ≤ m) ∧ rDec m = r

/-- R124: the lengths `HAM_ENC` produces are those of at least 3 that are no power of two; `HAM_DEC` accepts the
others all the same. -/
def Obligations.EncoderReachableLengths : Prop :=
  (∀ m, (∃ n, 1 ≤ n ∧ m = n + rEnc n) ↔ 3 ≤ m ∧ ¬ ∃ i, m = 2 ^ i) ∧
  (∀ n, 1 ≤ n → n = n + rEnc n - rDec (n + rEnc n)) ∧
  (∀ (cap : Capacity) (i y : Nat), cap.admits (2 ^ i) = true → invalid cap 0b11#2 (2 ^ i) y = false)

/-- R125: coverage. A parity position inside the word is in its own set, no other parity position is, and a
position lies in the sets of exactly its set bits. -/
def Obligations.CoverageByBits : Prop :=
  ∀ i m j : Nat,
    (j ∈ cover (2 ^ i) m ↔ 1 ≤ j ∧ j ≤ m ∧ j.testBit i = true) ∧
    (2 ^ i ≤ m → 2 ^ i ∈ cover (2 ^ i) m) ∧
    (∀ i', 2 ^ i' ∈ cover (2 ^ i) m → i' = i)

/-- R127: each parity bit of a codeword is the XOR of the other bits of its group, whatever the group holds. -/
def Obligations.ParityBitIsXorOfItsGroup : Prop :=
  ∀ (data : BitString) (i : Nat), 1 ≤ data.length → i < rEnc data.length →
    let cw := hamCodeword data
    bitAt cw (2 ^ i) = xorAt cw ((cover (2 ^ i) cw.length).filter (fun j => decide (j ≠ 2 ^ i)))

/-- R129: every parity check of an encoded codeword is even. -/
def Obligations.EncodedChecksAreEven : Prop :=
  ∀ (s : State) (a b : Operand) (r : Response) (i : Nat), validHamEnc s.cap a.len = true →
    Answers s (.hamEnc a b) r → i < rEnc a.len → xorAt r.r0 (cover (2 ^ i) r.r0.length) = false

/-- R139: the syndrome is the XOR of the positions that hold a 1, hence linear; flipping position `q` changes it by
XOR with `q`; the all-zero word has syndrome 0. Of the empty word, which
R130 leaves out, it is the model's own value that is meant (log 22). -/
def Obligations.SyndromeIsXorOfOnes : Prop :=
  (∀ cw : BitString, syndrome cw = xorOfOnes cw) ∧
  (∀ c d : BitString, c.length = d.length → syndrome (xorBits c d) = syndrome c ^^^ syndrome d) ∧
  (∀ (cw : BitString) (q : Nat), 1 ≤ q → q ≤ cw.length → syndrome (flipAt cw q) = syndrome cw ^^^ q) ∧
  (∀ m, syndrome (zeros m) = 0)

/-- R133: a clean codeword decodes clean. -/
def Obligations.CleanCodewordDecodesClean : Prop :=
  ∀ (s t : State) (a b b' : Operand) (r : Response), t.cap = s.cap → validHamEnc s.cap a.len = true →
    Answers s (.hamEnc a b) r →
    Answers t (.hamDec (.ofBits r.r0) b') { status := .ok, flag := false, r0 := r.r0, r1 := [], errpos := 0 }

/-- R134: a single flip, at any position, is corrected and its position reported. -/
def Obligations.SingleFlipIsCorrected : Prop :=
  ∀ (s t : State) (a b b' : Operand) (r : Response) (q : Nat), t.cap = s.cap →
    validHamEnc s.cap a.len = true → Answers s (.hamEnc a b) r → 1 ≤ q → q ≤ r.r0.length →
    Answers t (.hamDec (.ofBits (flipAt r.r0 q)) b')
      { status := .ok, flag := false, r0 := r.r0, r1 := [], errpos := q }

/-- R135: the range of the syndrome; the top wire of `errpos` is always 0; the syndrome can exceed `m` whenever `m`
is not of the form `2^r - 1`, and never does for a codeword with at most one bit flipped. -/
def Obligations.SyndromeRange : Prop :=
  (∀ cw : BitString, 1 ≤ cw.length →
    syndrome cw ≤ 2 ^ rDec cw.length - 1 ∧ 2 ^ rDec cw.length - 1 ≤ 2 * cw.length - 1) ∧
  (∀ (cap : Nat) (cw : BitString), 1 ≤ cw.length → cw.length ≤ cap →
    rDec cw.length ≤ lenW cap ∧ (syndrome cw).testBit (posW cap - 1) = false) ∧
  (∀ m, 1 ≤ m → (¬ ∃ r, m = 2 ^ r - 1) → ∃ cw : BitString, cw.length = m ∧ m < syndrome cw) ∧
  (∀ (data : BitString) (q : Nat), 1 ≤ data.length → 1 ≤ q → q ≤ (hamCodeword data).length →
    syndrome (hamCodeword data) ≤ (hamCodeword data).length ∧
      syndrome (flipAt (hamCodeword data) q) ≤ (hamCodeword data).length)

/-- R136: two flips of an encoder-produced codeword give the XOR of their positions as the syndrome, never 0: a
wrong correction if it is a position, `SYNDROME_RANGE` if it is not. Three flips can give syndrome 0. -/
def Obligations.DoubleFlipResponse : Prop :=
  syndrome (flipAt (flipAt (flipAt (hamCodeword [false]) 1) 2) 3) = 0 ∧
  ∀ (s t : State) (a b b' : Operand) (r : Response) (p q : Nat), t.cap = s.cap →
    validHamEnc s.cap a.len = true → Answers s (.hamEnc a b) r →
    1 ≤ p → p ≤ r.r0.length → 1 ≤ q → q ≤ r.r0.length → p ≠ q →
    let x := flipAt (flipAt r.r0 p) q
    p ^^^ q ≠ 0 ∧
    (p ^^^ q ≤ r.r0.length → Answers t (.hamDec (.ofBits x) b')
      { status := .ok, flag := false, r0 := flipAt x (p ^^^ q), r1 := [], errpos := p ^^^ q }) ∧
    (r.r0.length < p ^^^ q → Answers t (.hamDec (.ofBits x) b')
      { status := .syndromeRange, flag := false, r0 := x, r1 := [], errpos := p ^^^ q })

/-! ## The machine -/

/-- R33, R171: after reset `PHASE` is IDLE, `cmd_ready` is 1, `rsp_valid` is 0, at every capacity. -/
def Obligations.ResetIsIdleAndReady : Prop :=
  State.reset.phase = .idle ∧
  ∀ cap, (State.resetWith cap).phase = .idle ∧ (State.resetWith cap).cmdReady = true ∧
    (State.resetWith cap).rspValid = false ∧ (State.resetWith cap).cap = cap

/-- R170: while `rst` is asserted nothing is accepted or offered, whatever `PHASE` was, and the core is in IDLE
afterwards. -/
def Obligations.ResetOverridesEverything : Prop :=
  ∀ s : State, s.now.rst = true →
    s.cmdReady = false ∧ s.rspValid = false ∧ s.acceptedNow = none ∧ s.takenNow = none ∧
    ∃ t, step s = .next t ∧ t.phase = .idle ∧ t.cap = s.cap ∧ t.inputs = s.inputs.tail

/-- A step runs the decoded command: where an IDLE core out of reset is presented a command on wires the host has
held, and answers at once (log 4), the step is `exec` of the decoded command, on the state with the host's move
used up and nothing left presented. -/
def Obligations.StepRunsPresentedCommand : Prop :=
  ∀ s : State, s.phase = .idle → s.now.rst = false → s.now.cmdValid = true → s.now.pace = .atOnce →
    s.wiresHeld = true → s.presented.Nodup →
    step s = exec (decodeWires s.now.cmd) { s with inputs := s.inputs.tail, presented := [] }

/-- The same for a flattened word of opcode_table.json: with it on the wires of an IDLE core the next step is `exec`
of the command the decoder reads from it. -/
def Obligations.StepRunsTableWord : Prop :=
  ∀ (s : State) (nbits w : Nat) (i : Instr), decodeTableWord nbits w = some i →
    step (s.withFetchWord nbits w) = exec i { s with phase := .idle, presented := [] }

/-- R34: acceptance on wires the host has held (R174), by a core that makes no micro-step yet (log 4). A valid command
is captured and the core is BUSY. Of the addressed unit's working latches, those set at acceptance are: for the CRC
commands `DIVD`, `TMP` and `PICK` (R83); for `HAM_ENC` `R = 1` (R120); for `HAM_DEC` `R = 1` and `CW` (R121, R130). `CW` and
`DIDX` of `HAM_ENC` (R126) and `ERRACC` of `HAM_DEC` (R130) are initialised when the search for `r` ends: that place is the
model's choice (log 5), and nothing is said of them here. An invalid command goes straight to DONE with the fault
response, no working latch touched. That the other unit's latches and `RSP` keep their values meanwhile, and `OP`, `A`, `B`
theirs in DONE, is the model's choice (log 8). -/
def Obligations.AcceptCapturesAndChecks : Prop :=
  ∀ (s : State) (i : Instr), s.phase = .idle → s.now.rst = false → s.now.cmdValid = true →
    s.now.pace = .ticks 0 → s.wiresHeld = true → s.presented.Nodup → i = decodeWires s.now.cmd →
    s.cmdReady = true ∧
    ∃ t, step s = .next t ∧ t.op = s.now.cmd.op ∧ t.a = s.now.cmd.a ∧ t.b = s.now.cmd.b ∧
      (validInstr s.cap i = true → t.phase = .busy ∧ t.rsp = s.rsp ∧
        match i with
        | .crcEnc a b => t.div = .load (a.value ++ zeros (b.len - 1)) b.len ∧ t.ham = s.ham
        | .crcVfy a b => t.div = .load a.value b.len ∧ t.ham = s.ham
        | .hamEnc _ _ => t.div = s.div ∧ t.ham.r = 1
        | .hamDec a _ => t.div = s.div ∧ t.ham.r = 1 ∧ t.ham.cw = a.value) ∧
      (validInstr s.cap i = false →
        t.phase = .done ∧ t.rsp = Response.invalid ∧ t.div = s.div ∧ t.ham = s.ham)

/-- R50, R175: in BUSY and in DONE a command is not accepted, and whatever is on the command wires has no effect on
the step, but for the model's own record of what was presented (log 6). -/
def Obligations.CommandWiresIgnoredOutsideIdle : Prop :=
  ∀ (s t : State) (n : Tick) (rest : List Tick) (v : Bool) (c : CmdWires),
    s.phase ≠ .idle → s.inputs = n :: rest → step s = .next t →
    s.cmdReady = false ∧ s.acceptedNow = none ∧
    ∃ p, step { s with inputs := { n with cmdValid := v, cmd := c } :: rest } = .next { t with presented := p }

/-- R36, R176: a response is held, unchanged, for as long as the host leaves it: over any number of steps without
reset and without `rsp_ready`. -/
def Obligations.ResponseHeldUntilTaken : Prop :=
  ∀ (k : Nat) (s t : State), s.phase = .done →
    (∀ n ∈ s.inputs.take k, n.rst = false ∧ n.rspReady = false) →
    Host.Core.run Sys2Proof.core k s = .next t →
    t.phase = .done ∧ t.rsp = s.rsp ∧ t.inputs = s.inputs.drop k ∧ events k s = []

/-- R36: `rsp_valid` with the fields of `RSP` exactly in DONE; taking the response returns the core to IDLE. That the
hidden latches keep their values then is the model's choice (log 8): R25, R28, R32 and U6 give them no meaning
outside a command. The record of presented commands, which may change, is the model's own (log 6). -/
def Obligations.TakeReturnsToIdle : Prop :=
  ∀ s : State, s.now.rst = false →
    (s.rspPort = some s.rsp ↔ s.phase = .done) ∧ (s.phase ≠ .done → s.rspValid = false) ∧
    (s.phase = .done → s.now.rspReady = true →
      s.takenNow = some s.rsp ∧
      ∃ p, step s = .next { s with phase := .idle, inputs := s.inputs.tail, presented := p })

/-- R174, U5 (log 6): a host that holds its wires has exactly its command captured; one that does not has one of the
commands it presented captured, and nothing says which. -/
def Obligations.CaptureTakesAPresentedCommand : Prop :=
  ∀ (s : State) (c : CmdWires),
    (s.choose c = c ∨ s.choose c ∈ s.presented) ∧
    (s.presented.Nodup → (∀ d ∈ s.presented, d = c) → s.choose c = c)

/-- R20: statelessness. The response of `exec` depends on the capacity and the command alone. -/
def Obligations.ResponseDependsOnCommandAlone : Prop :=
  ∀ (s : State) (i : Instr), Answers s i (responseOf s.cap i)

/-- R35, R21: the serial core. From acceptance of a valid command the micro-steps of R179 lead to exactly the state
`exec` gives, hidden latches included, and not earlier. The granularity is the model's (log 5), and so is what the
hidden latches hold in DONE (log 8). -/
def Obligations.MicroStepsComputeExec : Prop :=
  ∀ (i : Instr) (s : State), validInstr s.cap i = true →
    exec i s = .next (work (referenceSteps i) (accept i s)) ∧
    ∀ k, k < referenceSteps i → (work k (accept i s)).phase = .busy

/-- R88: the divider's progress: after `c` iterations of step 2 the window holds `L` bits, `PICK` is `L + c`, and the
bit last appended is `D[PICK]`; so every further bit of the dividend is appended exactly once, in order. -/
def Obligations.DividerWindowProgress : Prop :=
  ∀ (d k : BitString) (c : Nat), 2 ≤ k.length → k.length + c ≤ d.length →
    let v := DivLatches.iterations k c (.load d k.length)
    v.pick = k.length + c ∧ v.divd = d ∧ v.tmp.length = k.length ∧
      bitAt v.tmp k.length = bitAt d (k.length + c)

/-- R180, R35: every command in flight ends: enough micro-steps bring a BUSY core to DONE with the response to the
captured command. -/
def Obligations.CommandInFlightEnds : Prop :=
  ∀ (s : State) (k : Nat), s.Coherent → s.phase = .busy → referenceSteps s.captured ≤ k →
    (work k s).phase = .done ∧ (work k s).rsp = responseOf s.cap s.captured

/-- R180: no step of any core stops: a next state always follows. -/
def Obligations.EveryStepHasNextState : Prop :=
  ∀ s : State, ∃ t, step s = .next t ∧ t.cap = s.cap ∧ t.inputs = s.inputs.tail

/-- The protocol's invariant: every step keeps a coherent state coherent, whatever the host does. `Coherent` reads the
command answered in DONE from `OP`, `A`, `B`: that they still hold it there is the model's choice (log 8), since R25 gives
them no meaning outside BUSY; the order of the latches' values in BUSY is the model's too (log 5). -/
def Obligations.StepKeepsCoherence : Prop :=
  ∀ s t : State, s.Coherent → step s = .next t → t.Coherent

/-- The core is coherent after reset. -/
def Obligations.ResetIsCoherent : Prop :=
  State.reset.Coherent ∧ ∀ cap, (State.resetWith cap).Coherent

/-- R23, R25 to R28, R135: every latch keeps to its width. From a coherent state whose latches fit and a host whose
commands fit their wires, every step leaves latches and wires that fit. What the hidden latches hold outside BUSY is
the model's choice (log 8), and so is `Coherent`'s reading of `OP`, `A`, `B` in DONE. -/
def Obligations.StepKeepsLatchWidths : Prop :=
  ∀ s t : State, s.cap.legal = true → s.Coherent → s.latchesFit = true → s.wiresFit = true →
    step s = .next t → t.latchesFit = true ∧ t.wiresFit = true

/-- The latches fit after reset (their values there are the model's, log 2). -/
def Obligations.ResetLatchesFit : Prop :=
  State.reset.cap.legal = true ∧ State.reset.latchesFit = true ∧ State.reset.wiresFit = true

/-- From R20, R36, R47 and R170: over any number of steps, any host and any pace, from any coherent state, every
response taken is that of the command outstanding, each command is answered at most once and in the order of
acceptance, none is accepted while one is outstanding, a reset drops the one outstanding, and no response comes
without a command. The history may end with a command outstanding; that it is answered in the end is
`BusyCoreAnswersOnEverySchedule`. Where the run starts in DONE, the command outstanding is read from `OP`, `A`, `B`,
which hold it there by the model's choice (log 8). -/
def Obligations.ResponsesTakenAreOfOutstandingCommand : Prop :=
  ∀ (k : Nat) (s : State), s.Coherent → wellAnswered s.cap s.outstanding (events k s) = true

/-- R180, R35, U13: whatever the schedule, as long as no reset comes, the steps of the machine bring a coherent BUSY
core to DONE with the response to its captured command; a stuck core is no state of any run. The bound is the
model's (log 4, log 5): the moves scheduled, each of which may delay the core, then the reference count of R179. That `OP`, `A`, `B` still hold the command in that
DONE state is the model's choice as well (log 8): R25 gives them no meaning there. -/
def Obligations.BusyCoreAnswersOnEverySchedule : Prop :=
  ∀ s : State, s.Coherent → s.phase = .busy → (∀ n ∈ s.inputs, n.rst = false) →
    ∃ (k : Nat) (t : State), k ≤ s.inputs.length + referenceSteps s.captured ∧
      Host.Core.run Sys2Proof.core k s = .next t ∧ t.phase = .done ∧ t.captured = s.captured ∧
      t.rsp = responseOf s.cap s.captured
end

