-- ==== Sys2Proof/Laws/Bits.lean ====
section
/-! SUPPORT. The small lemmas of the BitString primitives: lengths, elements, and reading after writing. -/

namespace Sys2Proof.Machine

@[simp] theorem zeros_length (k : Nat) : (zeros k).length = k := by simp [zeros]

@[simp] theorem zeros_zero : zeros 0 = [] := rfl

theorem sub_length (s : BitString) (i j : Nat) : (sub s i j).length = min (j + 1 - i) (s.length - (i - 1)) := by
  simp [sub]

/-- Dropping the leading element: `s[2..len(s)]`. -/
theorem sub_two_length (s : BitString) : sub s 2 s.length = s.tail := by
  cases s with
  | nil => rfl
  | cons b t => simp [sub]

@[simp] theorem setAt_length (s : BitString) (i : Nat) (b : Bit) : (setAt s i b).length = s.length := by
  unfold setAt; split <;> simp

@[simp] theorem flipAt_length (s : BitString) (i : Nat) : (flipAt s i).length = s.length := setAt_length s i _

@[simp] theorem bitAt_zero (s : BitString) : bitAt s 0 = false := rfl

@[simp] theorem bitAt_succ (s : BitString) (i : Nat) : bitAt s (i + 1) = s.getD i false := rfl

/-- Reading the element just written. -/
theorem bitAt_setAt_self (s : BitString) (i : Nat) (b : Bit) (h1 : 1 ≤ i) (h2 : i ≤ s.length) :
    bitAt (setAt s i b) i = b := by
  obtain ⟨k, rfl⟩ : ∃ k, i = k + 1 := ⟨i - 1, by omega⟩
  have : k < s.length := by omega
  simp [setAt, bitAt, this]

/-- A write leaves every other element alone. -/
theorem bitAt_setAt_of_ne (s : BitString) (i j : Nat) (b : Bit) (h : i ≠ j) :
    bitAt (setAt s i b) j = bitAt s j := by
  unfold setAt bitAt
  split
  · rfl
  · split
    · rfl
    · rw [List.getD_eq_getElem?_getD, List.getD_eq_getElem?_getD, List.getElem?_set_ne (by omega)]

/-- Outside `1 .. len` nothing is set. -/
theorem bitAt_of_length_lt (s : BitString) (i : Nat) (h : s.length < i) : bitAt s i = false := by
  obtain ⟨k, rfl⟩ : ∃ k, i = k + 1 := ⟨i - 1, by omega⟩
  rw [bitAt_succ, List.getD_eq_getElem?_getD, List.getElem?_eq_none (by omega)]
  rfl

@[simp] theorem xorBits_length (a b : BitString) : (xorBits a b).length = min a.length b.length := by
  simp [xorBits]

@[simp] theorem positions_length (m : Nat) : (positions m).length = m := by simp [positions]

theorem mem_positions {m j : Nat} : j ∈ positions m ↔ 1 ≤ j ∧ j ≤ m := by
  simp [positions, List.mem_range'_1]; omega

/-- The walk over `m + 1` positions is the walk over `m` and then position `m + 1`. -/
theorem positions_succ (m : Nat) : positions (m + 1) = positions m ++ [m + 1] := by
  simp [positions, List.range'_1_concat, Nat.add_comm]

/-- A BitString is all zero exactly when it is `zeros` of its own length. -/
theorem isZero_iff_eq_zeros (s : BitString) : isZero s = true ↔ s = zeros s.length := by
  simp [isZero, zeros, List.eq_replicate_iff]

/-- The divisor or the zeros: either way of the divisor's length. -/
@[simp] theorem sel_length (t k : BitString) : (sel t k).length = k.length := by
  unfold sel; split <;> simp

/-- The length field is the length of the operand. -/
@[simp] theorem value_length (x : Operand) : x.value.length = x.len := by simp [Operand.value]

/-- The bit test of a power of two is a test of that bit (R5). -/
theorem covers_two_pow (i j : Nat) : covers (2 ^ i) j = j.testBit i := by
  unfold covers
  by_cases h : j.testBit i = true
  · rw [h, decide_eq_true_eq]
    intro h0
    have := congrArg (fun n => n.testBit i) h0
    simp [Nat.testBit_and, Nat.testBit_two_pow_self, h] at this
  · rw [Bool.not_eq_true] at h
    rw [h, decide_eq_false_iff_not, not_not]
    apply Nat.eq_of_testBit_eq
    intro k
    rw [Nat.testBit_and, Nat.testBit_two_pow, Nat.zero_testBit]
    by_cases hk : i = k
    · subst hk; simp [h]
    · simp [hk]

/-- `ispow2` is what R5 says it is. -/
theorem isPow2_iff (j : Nat) : isPow2 j = true ↔ ∃ i, j = 2 ^ i := by
  unfold isPow2
  rw [decide_eq_true_eq]
  constructor
  · intro h; exact ⟨_, h.symm⟩
  · rintro ⟨i, rfl⟩; rw [Nat.log2_two_pow]

end Sys2Proof.Machine
end

