-- ==== Sys2Proof/Laws/PerInstr.lean ====
section
/-! SUPPORT. The families of statements made one constructor at a time. -/

namespace Sys2Proof.Laws

/-- The wires that carry a command decode to that command. -/
def WiresReadBack.Statement (i : Instr) : Prop := decodeWires (encodeWires i) = i

theorem WiresReadBack.crcEnc (a b : Operand) : WiresReadBack.Statement (.crcEnc a b) := rfl
theorem WiresReadBack.crcVfy (a b : Operand) : WiresReadBack.Statement (.crcVfy a b) := rfl
theorem WiresReadBack.hamEnc (a b : Operand) : WiresReadBack.Statement (.hamEnc a b) := rfl
theorem WiresReadBack.hamDec (a b : Operand) : WiresReadBack.Statement (.hamDec a b) := rfl

end Sys2Proof.Laws
end

