-- ==== Sys2Proof/Laws/State.lean ====
section
/-! SUPPORT. One lemma per field for every update of State, so that no later proof unfolds a record update. -/

namespace Sys2Proof.Machine

/-! ### `State.capture` -/

@[simp] theorem State.capture_cap (s : State) (o : BitVec 2) (x y : Operand) :
    (s.capture o x y).cap = s.cap := rfl
@[simp] theorem State.capture_phase (s : State) (o : BitVec 2) (x y : Operand) :
    (s.capture o x y).phase = s.phase := rfl
@[simp] theorem State.capture_op (s : State) (o : BitVec 2) (x y : Operand) :
    (s.capture o x y).op = o := rfl
@[simp] theorem State.capture_a (s : State) (o : BitVec 2) (x y : Operand) :
    (s.capture o x y).a = x := rfl
@[simp] theorem State.capture_b (s : State) (o : BitVec 2) (x y : Operand) :
    (s.capture o x y).b = y := rfl
@[simp] theorem State.capture_div (s : State) (o : BitVec 2) (x y : Operand) :
    (s.capture o x y).div = s.div := rfl
@[simp] theorem State.capture_ham (s : State) (o : BitVec 2) (x y : Operand) :
    (s.capture o x y).ham = s.ham := rfl
@[simp] theorem State.capture_rsp (s : State) (o : BitVec 2) (x y : Operand) :
    (s.capture o x y).rsp = s.rsp := rfl
@[simp] theorem State.capture_stage (s : State) (o : BitVec 2) (x y : Operand) :
    (s.capture o x y).stage = s.stage := rfl
@[simp] theorem State.capture_inputs (s : State) (o : BitVec 2) (x y : Operand) :
    (s.capture o x y).inputs = s.inputs := rfl
@[simp] theorem State.capture_presented (s : State) (o : BitVec 2) (x y : Operand) :
    (s.capture o x y).presented = s.presented := rfl
@[simp] theorem State.capture_draws (s : State) (o : BitVec 2) (x y : Operand) :
    (s.capture o x y).draws = s.draws := rfl

/-! ### `State.answer` -/

@[simp] theorem State.answer_cap (s : State) (r : Response) :
    (s.answer r).cap = s.cap := rfl
@[simp] theorem State.answer_phase (s : State) (r : Response) :
    (s.answer r).phase = .done := rfl
@[simp] theorem State.answer_op (s : State) (r : Response) :
    (s.answer r).op = s.op := rfl
@[simp] theorem State.answer_a (s : State) (r : Response) :
    (s.answer r).a = s.a := rfl
@[simp] theorem State.answer_b (s : State) (r : Response) :
    (s.answer r).b = s.b := rfl
@[simp] theorem State.answer_div (s : State) (r : Response) :
    (s.answer r).div = s.div := rfl
@[simp] theorem State.answer_ham (s : State) (r : Response) :
    (s.answer r).ham = s.ham := rfl
@[simp] theorem State.answer_rsp (s : State) (r : Response) :
    (s.answer r).rsp = r := rfl
@[simp] theorem State.answer_stage (s : State) (r : Response) :
    (s.answer r).stage = .rest := rfl
@[simp] theorem State.answer_inputs (s : State) (r : Response) :
    (s.answer r).inputs = s.inputs := rfl
@[simp] theorem State.answer_presented (s : State) (r : Response) :
    (s.answer r).presented = s.presented := rfl
@[simp] theorem State.answer_draws (s : State) (r : Response) :
    (s.answer r).draws = s.draws := rfl

/-! ### `State.reject` -/

@[simp] theorem State.reject_cap (s : State) :
    (s.reject).cap = s.cap := rfl
@[simp] theorem State.reject_phase (s : State) :
    (s.reject).phase = .done := rfl
@[simp] theorem State.reject_op (s : State) :
    (s.reject).op = s.op := rfl
@[simp] theorem State.reject_a (s : State) :
    (s.reject).a = s.a := rfl
@[simp] theorem State.reject_b (s : State) :
    (s.reject).b = s.b := rfl
@[simp] theorem State.reject_div (s : State) :
    (s.reject).div = s.div := rfl
@[simp] theorem State.reject_ham (s : State) :
    (s.reject).ham = s.ham := rfl
@[simp] theorem State.reject_rsp (s : State) :
    (s.reject).rsp = .invalid := rfl
@[simp] theorem State.reject_stage (s : State) :
    (s.reject).stage = .rest := rfl
@[simp] theorem State.reject_inputs (s : State) :
    (s.reject).inputs = s.inputs := rfl
@[simp] theorem State.reject_presented (s : State) :
    (s.reject).presented = s.presented := rfl
@[simp] theorem State.reject_draws (s : State) :
    (s.reject).draws = s.draws := rfl

/-! ### `State.take` -/

@[simp] theorem State.take_cap (s : State) :
    (s.take).cap = s.cap := rfl
@[simp] theorem State.take_phase (s : State) :
    (s.take).phase = .idle := rfl
@[simp] theorem State.take_op (s : State) :
    (s.take).op = s.op := rfl
@[simp] theorem State.take_a (s : State) :
    (s.take).a = s.a := rfl
@[simp] theorem State.take_b (s : State) :
    (s.take).b = s.b := rfl
@[simp] theorem State.take_div (s : State) :
    (s.take).div = s.div := rfl
@[simp] theorem State.take_ham (s : State) :
    (s.take).ham = s.ham := rfl
@[simp] theorem State.take_rsp (s : State) :
    (s.take).rsp = s.rsp := rfl
@[simp] theorem State.take_stage (s : State) :
    (s.take).stage = s.stage := rfl
@[simp] theorem State.take_inputs (s : State) :
    (s.take).inputs = s.inputs := rfl
@[simp] theorem State.take_presented (s : State) :
    (s.take).presented = s.presented := rfl
@[simp] theorem State.take_draws (s : State) :
    (s.take).draws = s.draws := rfl

/-! ### `State.resetLatches` -/

@[simp] theorem State.resetLatches_cap (s : State) :
    (s.resetLatches).cap = s.cap := rfl
@[simp] theorem State.resetLatches_phase (s : State) :
    (s.resetLatches).phase = .idle := rfl
@[simp] theorem State.resetLatches_op (s : State) :
    (s.resetLatches).op = 0#2 := rfl
@[simp] theorem State.resetLatches_a (s : State) :
    (s.resetLatches).a = { len := 0, bits := 0 } := rfl
@[simp] theorem State.resetLatches_b (s : State) :
    (s.resetLatches).b = { len := 0, bits := 0 } := rfl
@[simp] theorem State.resetLatches_div (s : State) :
    (s.resetLatches).div = .reset := rfl
@[simp] theorem State.resetLatches_ham (s : State) :
    (s.resetLatches).ham = .reset := rfl
@[simp] theorem State.resetLatches_rsp (s : State) :
    (s.resetLatches).rsp = .zero := rfl
@[simp] theorem State.resetLatches_stage (s : State) :
    (s.resetLatches).stage = .rest := rfl
@[simp] theorem State.resetLatches_inputs (s : State) :
    (s.resetLatches).inputs = s.inputs := rfl
@[simp] theorem State.resetLatches_presented (s : State) :
    (s.resetLatches).presented = [] := rfl
@[simp] theorem State.resetLatches_draws (s : State) :
    (s.resetLatches).draws = s.draws := rfl

/-! ### `State.consume` -/

@[simp] theorem State.consume_cap (s : State) :
    (s.consume).cap = s.cap := rfl
@[simp] theorem State.consume_phase (s : State) :
    (s.consume).phase = s.phase := rfl
@[simp] theorem State.consume_op (s : State) :
    (s.consume).op = s.op := rfl
@[simp] theorem State.consume_a (s : State) :
    (s.consume).a = s.a := rfl
@[simp] theorem State.consume_b (s : State) :
    (s.consume).b = s.b := rfl
@[simp] theorem State.consume_div (s : State) :
    (s.consume).div = s.div := rfl
@[simp] theorem State.consume_ham (s : State) :
    (s.consume).ham = s.ham := rfl
@[simp] theorem State.consume_rsp (s : State) :
    (s.consume).rsp = s.rsp := rfl
@[simp] theorem State.consume_stage (s : State) :
    (s.consume).stage = s.stage := rfl
@[simp] theorem State.consume_inputs (s : State) :
    (s.consume).inputs = s.inputs.tail := rfl
@[simp] theorem State.consume_presented (s : State) :
    (s.consume).presented = s.presented := rfl
@[simp] theorem State.consume_draws (s : State) :
    (s.consume).draws = s.draws := rfl

/-! ### `State.opened` -/

@[simp] theorem State.opened_cap (s : State) :
    (s.opened).cap = s.cap := rfl
@[simp] theorem State.opened_phase (s : State) :
    (s.opened).phase = s.phase := rfl
@[simp] theorem State.opened_op (s : State) :
    (s.opened).op = s.op := rfl
@[simp] theorem State.opened_a (s : State) :
    (s.opened).a = s.a := rfl
@[simp] theorem State.opened_b (s : State) :
    (s.opened).b = s.b := rfl
@[simp] theorem State.opened_div (s : State) :
    (s.opened).div = s.div := rfl
@[simp] theorem State.opened_ham (s : State) :
    (s.opened).ham = s.ham := rfl
@[simp] theorem State.opened_rsp (s : State) :
    (s.opened).rsp = s.rsp := rfl
@[simp] theorem State.opened_stage (s : State) :
    (s.opened).stage = s.stage := rfl
@[simp] theorem State.opened_inputs (s : State) :
    (s.opened).inputs = s.inputs.tail := rfl
@[simp] theorem State.opened_presented (s : State) :
    (s.opened).presented = [] := rfl
@[simp] theorem State.opened_draws (s : State) :
    (s.opened).draws = s.drawsAfter s.now.cmd := rfl

/-! ### `State.presenting` -/

@[simp] theorem State.presenting_cap (s : State) (c : CmdWires) :
    (s.presenting c).cap = s.cap := rfl
@[simp] theorem State.presenting_phase (s : State) (c : CmdWires) :
    (s.presenting c).phase = .idle := rfl
@[simp] theorem State.presenting_op (s : State) (c : CmdWires) :
    (s.presenting c).op = s.op := rfl
@[simp] theorem State.presenting_a (s : State) (c : CmdWires) :
    (s.presenting c).a = s.a := rfl
@[simp] theorem State.presenting_b (s : State) (c : CmdWires) :
    (s.presenting c).b = s.b := rfl
@[simp] theorem State.presenting_div (s : State) (c : CmdWires) :
    (s.presenting c).div = s.div := rfl
@[simp] theorem State.presenting_ham (s : State) (c : CmdWires) :
    (s.presenting c).ham = s.ham := rfl
@[simp] theorem State.presenting_rsp (s : State) (c : CmdWires) :
    (s.presenting c).rsp = s.rsp := rfl
@[simp] theorem State.presenting_stage (s : State) (c : CmdWires) :
    (s.presenting c).stage = s.stage := rfl
@[simp] theorem State.presenting_inputs (s : State) (c : CmdWires) :
    (s.presenting c).inputs = Tick.present c :: s.inputs := rfl
@[simp] theorem State.presenting_presented (s : State) (c : CmdWires) :
    (s.presenting c).presented = [] := rfl
@[simp] theorem State.presenting_draws (s : State) (c : CmdWires) :
    (s.presenting c).draws = s.draws := rfl

/-! ### `State.notePresented` -/

@[simp] theorem State.notePresented_cap (s : State) :
    s.notePresented.cap = s.cap := rfl
@[simp] theorem State.notePresented_phase (s : State) :
    s.notePresented.phase = s.phase := rfl
@[simp] theorem State.notePresented_op (s : State) :
    s.notePresented.op = s.op := rfl
@[simp] theorem State.notePresented_a (s : State) :
    s.notePresented.a = s.a := rfl
@[simp] theorem State.notePresented_b (s : State) :
    s.notePresented.b = s.b := rfl
@[simp] theorem State.notePresented_div (s : State) :
    s.notePresented.div = s.div := rfl
@[simp] theorem State.notePresented_ham (s : State) :
    s.notePresented.ham = s.ham := rfl
@[simp] theorem State.notePresented_rsp (s : State) :
    s.notePresented.rsp = s.rsp := rfl
@[simp] theorem State.notePresented_stage (s : State) :
    s.notePresented.stage = s.stage := rfl
@[simp] theorem State.notePresented_inputs (s : State) :
    s.notePresented.inputs = s.inputs := rfl
@[simp] theorem State.notePresented_presented (s : State) :
    s.notePresented.presented = if s.now.cmdValid then s.candidates s.now.cmd else s.presented := rfl
@[simp] theorem State.notePresented_draws (s : State) :
    s.notePresented.draws = s.draws := rfl

/-! ### A presented command on the wires -/

@[simp] theorem State.presenting_now (s : State) (c : CmdWires) : (s.presenting c).now = Tick.present c := rfl

@[simp] theorem State.presenting_consume (s : State) (c : CmdWires) :
    (s.presenting c).consume = { s with phase := .idle, presented := [] } := rfl

end Sys2Proof.Machine
end

