-- ==== Sys2Proof/Laws/Units.lean ====
section
/-! SUPPORT. What the steps of the two units do to their latches, and the searches for `r`. -/

namespace Sys2Proof.Machine

/-! ### The divider -/

@[simp] theorem load_divd (d : BitString) (l : Nat) : (DivLatches.load d l).divd = d := rfl
@[simp] theorem load_pick (d : BitString) (l : Nat) : (DivLatches.load d l).pick = l := rfl
@[simp] theorem load_tmp (d : BitString) (l : Nat) : (DivLatches.load d l).tmp = sub d 1 l := rfl
@[simp] theorem iterate_divd (k : BitString) (v : DivLatches) : (v.iterate k).divd = v.divd := rfl
@[simp] theorem iterate_pick (k : BitString) (v : DivLatches) : (v.iterate k).pick = v.pick + 1 := rfl

@[simp] theorem iterations_zero (k : BitString) (v : DivLatches) : DivLatches.iterations k 0 v = v := rfl

theorem iterations_succ (k : BitString) (c : Nat) (v : DivLatches) :
    DivLatches.iterations k (c + 1) v = DivLatches.iterations k c (v.iterate k) := rfl

/-- Iterations run one after the other. -/
theorem iterations_add (k : BitString) (c e : Nat) (v : DivLatches) :
    DivLatches.iterations k (c + e) v = DivLatches.iterations k e (DivLatches.iterations k c v) := by
  induction c generalizing v with
  | zero => simp
  | succ c ih => rw [Nat.succ_add, iterations_succ, ih, iterations_succ]

/-- The dividend stays in its latch. -/
@[simp] theorem iterations_divd (k : BitString) (c : Nat) (v : DivLatches) :
    (DivLatches.iterations k c v).divd = v.divd := by
  induction c generalizing v with
  | zero => rfl
  | succ c ih => rw [iterations_succ, ih, iterate_divd]

/-! ### The searches for `r` -/

/-- A search with enough fuel stops at a value where the test fails, having passed only values where it holds. -/
theorem searchUp_spec (short : Nat → Bool) (fuel r : Nat) (h : ∃ x, r ≤ x ∧ x ≤ r + fuel ∧ short x = false) :
    short (searchUp short fuel r) = false ∧ r ≤ searchUp short fuel r ∧
      ∀ x, r ≤ x → x < searchUp short fuel r → short x = true := by
  induction fuel generalizing r with
  | zero =>
    obtain ⟨x, h1, h2, h3⟩ := h
    obtain rfl : x = r := by omega
    exact ⟨h3, le_refl _, fun y hy hl => absurd hl (by simp [searchUp]; omega)⟩
  | succ fuel ih =>
    unfold searchUp
    split
    · next hs =>
      obtain ⟨x, h1, h2, h3⟩ := h
      have hne : x ≠ r := by rintro rfl; rw [h3] at hs; cases hs
      obtain ⟨a, b, c⟩ := ih (r + 1) ⟨x, by omega, by omega, h3⟩
      refine ⟨a, by omega, fun y hy hl => ?_⟩
      by_cases hyr : y = r
      · subst hyr; exact hs
      · exact c y (by omega) hl
    · next hs => exact ⟨by simpa using hs, le_refl _, fun y hy hl => absurd hl (by omega)⟩

/-! ### The Hamming unit -/

/-- Placement at one position writes `CW` there and nowhere else, and keeps the other latches but `POS`, `DIDX`. -/
theorem placeAt_keeps (data : BitString) (h : HamLatches) (pos : Nat) :
    (h.placeAt data pos).r = h.r ∧ (h.placeAt data pos).pi = h.pi ∧ (h.placeAt data pos).j = h.j ∧
    (h.placeAt data pos).acc = h.acc ∧ (h.placeAt data pos).errAcc = h.errAcc ∧
    (h.placeAt data pos).pos = pos ∧ (h.placeAt data pos).cw.length = h.cw.length ∧
    ∀ j, j ≠ pos → bitAt (h.placeAt data pos).cw j = bitAt h.cw j := by
  unfold HamLatches.placeAt
  split <;> refine ⟨rfl, rfl, rfl, rfl, rfl, rfl, by simp, fun j hj => bitAt_setAt_of_ne _ _ _ _ (Ne.symm hj)⟩

/-- A parity visit changes `J` and `ACC` only. -/
theorem parityVisit_keeps (i : Nat) (h : HamLatches) (j : Nat) :
    h.parityVisit i j = { h with j := j, acc := (h.parityVisit i j).acc } := rfl

/-- A check visit changes `J` and `ACC` only. -/
theorem checkVisit_keeps (i : Nat) (h : HamLatches) (j : Nat) :
    h.checkVisit i j = { h with j := j, acc := (h.checkVisit i j).acc } := rfl

/-- A visit of position `j` in check `i` adds `CW[j]` to the running XOR exactly when bit `i` of `j` is set. -/
theorem checkVisit_acc (i : Nat) (h : HamLatches) (j : Nat) :
    (h.checkVisit i j).acc = Bool.xor h.acc (j.testBit i && bitAt h.cw j) := by
  simp only [HamLatches.checkVisit, covers_two_pow]
  cases j.testBit i <;> simp

end Sys2Proof.Machine
end

