-- ==== Sys2Proof/Laws/Ops.lean ====
section
/-! SUPPORT. What each shared operation and each part of a step can do, said once. -/

namespace Sys2Proof.Machine

@[simp] theorem decodeWires_encodeWires (i : Instr) : decodeWires (encodeWires i) = i := by cases i <;> rfl

theorem encodeWires_decodeWires (c : CmdWires) : encodeWires (decodeWires c) = c := by
  obtain ⟨op, a, b⟩ := c
  have h : op = 0#2 ∨ op = 1#2 ∨ op = 2#2 ∨ op = 3#2 := by revert op; decide
  rcases h with rfl | rfl | rfl | rfl <;> rfl

/-- The check of R151 on a command. -/
def invalidInstr (cap : Capacity) (i : Instr) : Bool :=
  invalid cap (encodeWires i).op (encodeWires i).a.len (encodeWires i).b.len

/-- The state in which a command is captured. -/
def State.captureInstr (s : State) (i : Instr) : State :=
  s.capture (encodeWires i).op (encodeWires i).a (encodeWires i).b

/-- Everything `exec` can do: the fault response, or a response after the unit's latches have run. -/
theorem exec_cases (i : Instr) (s : State) :
    (invalidInstr s.cap i = true ∧ exec i s = .next (s.captureInstr i).reject) ∨
    (invalidInstr s.cap i = false ∧ ∃ v h r,
      exec i s = .next ({ s.captureInstr i with div := v, ham := h }.answer r)) := by
  cases i with
  | crcEnc a b =>
    simp only [exec, execCrcEnc, invalidInstr, encodeWires, State.captureInstr]
    split
    · next h => exact .inl ⟨h, rfl⟩
    · next h => exact .inr ⟨by simpa using h, _, s.ham, _, rfl⟩
  | crcVfy a b =>
    simp only [exec, execCrcVfy, invalidInstr, encodeWires, State.captureInstr]
    split
    · next h => exact .inl ⟨h, rfl⟩
    · next h => exact .inr ⟨by simpa using h, _, s.ham, _, rfl⟩
  | hamEnc a b =>
    simp only [exec, execHamEnc, invalidInstr, encodeWires, State.captureInstr]
    split
    · next h => exact .inl ⟨h, rfl⟩
    · next h => exact .inr ⟨by simpa using h, s.div, _, _, rfl⟩
  | hamDec a b =>
    simp only [exec, execHamDec, invalidInstr, encodeWires, State.captureInstr]
    split
    · next h => exact .inl ⟨h, rfl⟩
    · next h => exact .inr ⟨by simpa using h, s.div, _, _, rfl⟩

/-- The fields no command and no micro-step touches, and the command latches. -/
structure SameCommand (s t : State) : Prop where
  cap : t.cap = s.cap
  op : t.op = s.op
  a : t.a = s.a
  b : t.b = s.b
  inputs : t.inputs = s.inputs
  presented : t.presented = s.presented
  draws : t.draws = s.draws

theorem SameCommand.refl (s : State) : SameCommand s s := ⟨rfl, rfl, rfl, rfl, rfl, rfl, rfl⟩

theorem SameCommand.trans {s t u : State} (h : SameCommand s t) (g : SameCommand t u) : SameCommand s u :=
  ⟨g.cap.trans h.cap, g.op.trans h.op, g.a.trans h.a, g.b.trans h.b, g.inputs.trans h.inputs,
    g.presented.trans h.presented, g.draws.trans h.draws⟩

/-- Settling a search writes `STAGE` and, when the search is over, `CW`, `DIDX` or `ERRACC`. -/
theorem settleSearch_keeps (s : State) :
    SameCommand s s.settleSearch ∧ s.settleSearch.phase = s.phase ∧ s.settleSearch.div = s.div ∧
      s.settleSearch.rsp = s.rsp ∧ s.settleSearch.ham.r = s.ham.r := by
  unfold State.settleSearch
  split <;> split <;> exact ⟨⟨rfl, rfl, rfl, rfl, rfl, rfl, rfl⟩, rfl, rfl, rfl, rfl⟩

/-- Starting a command leaves a BUSY core with the command latches as they were. -/
theorem launch_keeps (i : Instr) (s : State) :
    SameCommand s (s.launch i) ∧ (s.launch i).phase = .busy ∧ (s.launch i).rsp = s.rsp := by
  cases i with
  | crcEnc a b => exact ⟨⟨rfl, rfl, rfl, rfl, rfl, rfl, rfl⟩, rfl, rfl⟩
  | crcVfy a b => exact ⟨⟨rfl, rfl, rfl, rfl, rfl, rfl, rfl⟩, rfl, rfl⟩
  | hamEnc a b =>
    obtain ⟨h, p, _, r, _⟩ := settleSearch_keeps { s with ham := { s.ham with r := 1 }, phase := .busy }
    exact ⟨⟨h.cap, h.op, h.a, h.b, h.inputs, h.presented, h.draws⟩, p, r⟩
  | hamDec a b =>
    obtain ⟨h, p, _, r, _⟩ :=
      settleSearch_keeps { s with ham := { s.ham with r := 1, cw := a.value }, phase := .busy }
    exact ⟨⟨h.cap, h.op, h.a, h.b, h.inputs, h.presented, h.draws⟩, p, r⟩

/-- Everything acceptance can do. -/
theorem accept_cases (i : Instr) (s : State) :
    (invalidInstr s.cap i = true ∧ accept i s = (s.captureInstr i).reject) ∨
    (invalidInstr s.cap i = false ∧ accept i s = (s.captureInstr i).launch i ∧ (accept i s).phase = .busy) := by
  unfold accept invalidInstr State.captureInstr
  simp only
  split
  · next h => exact .inl ⟨h, rfl⟩
  · next h => exact .inr ⟨by simpa using h, rfl, (launch_keeps i _).2.1⟩

/-- Acceptance captures the command. -/
theorem accept_captured (i : Instr) (s : State) : (accept i s).captured = i := by
  unfold State.captured
  rcases accept_cases i s with ⟨-, h⟩ | ⟨-, h, -⟩
  · rw [h]; exact decodeWires_encodeWires i
  · obtain ⟨k, -⟩ := launch_keeps i (s.captureInstr i)
    rw [h, k.op, k.a, k.b]; exact decodeWires_encodeWires i

/-- Accepting the captured command again keeps the command latches. -/
theorem accept_captured_keeps (s : State) :
    SameCommand s (accept s.captured s) ∧
      ((accept s.captured s).phase = .busy ∧ (accept s.captured s).rsp = s.rsp ∨
        (accept s.captured s).phase = .done) := by
  have hc : s.captureInstr s.captured = s := by
    simp only [State.captureInstr, State.captured, encodeWires_decodeWires]; rfl
  rcases accept_cases s.captured s with ⟨-, h⟩ | ⟨-, h, -⟩
  · rw [h, hc]; exact ⟨⟨rfl, rfl, rfl, rfl, rfl, rfl, rfl⟩, .inr rfl⟩
  · rw [h, hc]; obtain ⟨k, p, r⟩ := launch_keeps s.captured s; exact ⟨k, .inl ⟨p, r⟩⟩

/-- After the last scheduled move the host does nothing and the core goes on by one micro-step (R180). -/
theorem now_of_no_inputs (s : State) (h : s.inputs = []) : s.now = .quiet := by simp [State.now, h]

theorem now_of_inputs (s : State) (n : Tick) (rest : List Tick) (h : s.inputs = n :: rest) : s.now = n := by
  simp [State.now, h]

@[simp] theorem microStep_of_idle (s : State) (h : s.phase = .idle) : microStep s = s := by simp [microStep, h]

@[simp] theorem microStep_of_done (s : State) (h : s.phase = .done) : microStep s = s := by simp [microStep, h]

/-- A micro-step keeps the command and never leaves BUSY but for DONE. -/
theorem microStep_keeps (s : State) :
    SameCommand s (microStep s) ∧
      ((microStep s).phase = s.phase ∧ (microStep s).rsp = s.rsp ∨ (microStep s).phase = .done) := by
  have same : ∀ t : State, SameCommand t t ∧ (t.phase = t.phase ∧ t.rsp = t.rsp ∨ t.phase = .done) :=
    fun t => ⟨.refl t, .inl ⟨rfl, rfl⟩⟩
  unfold microStep
  split
  · exact same s
  · exact same s
  · next hp =>
    split
    · rw [hp]; exact accept_captured_keeps s
    · split
      · exact ⟨⟨rfl, rfl, rfl, rfl, rfl, rfl, rfl⟩, .inl ⟨rfl, rfl⟩⟩
      · exact ⟨⟨rfl, rfl, rfl, rfl, rfl, rfl, rfl⟩, .inr rfl⟩
    · obtain ⟨h, p, _, r, _⟩ := settleSearch_keeps { s with ham := { s.ham with r := s.ham.r + 1 } }
      exact ⟨⟨h.cap, h.op, h.a, h.b, h.inputs, h.presented, h.draws⟩, .inl ⟨p, r⟩⟩
    · exact ⟨⟨rfl, rfl, rfl, rfl, rfl, rfl, rfl⟩, .inl ⟨rfl, rfl⟩⟩
    · next i j _ =>
      dsimp only
      generalize (if j = 1 then s.ham.openGroup i else s.ham) = h
      split
      · exact ⟨⟨rfl, rfl, rfl, rfl, rfl, rfl, rfl⟩, .inl ⟨rfl, rfl⟩⟩
      · split
        · exact ⟨⟨rfl, rfl, rfl, rfl, rfl, rfl, rfl⟩, .inl ⟨rfl, rfl⟩⟩
        · exact ⟨⟨rfl, rfl, rfl, rfl, rfl, rfl, rfl⟩, .inr rfl⟩
    · next i j _ =>
      dsimp only
      generalize (if j = 1 then s.ham.openGroup i else s.ham) = h
      split
      · exact ⟨⟨rfl, rfl, rfl, rfl, rfl, rfl, rfl⟩, .inl ⟨rfl, rfl⟩⟩
      · exact ⟨⟨rfl, rfl, rfl, rfl, rfl, rfl, rfl⟩, .inl ⟨rfl, rfl⟩⟩
    · exact ⟨⟨rfl, rfl, rfl, rfl, rfl, rfl, rfl⟩, .inr rfl⟩

@[simp] theorem work_zero (s : State) : work 0 s = s := rfl

theorem work_succ (k : Nat) (s : State) : work (k + 1) s = work k (microStep s) := rfl

/-- Micro-steps run one after the other. -/
theorem work_add (k l : Nat) (s : State) : work (k + l) s = work l (work k s) := by
  induction k generalizing s with
  | zero => simp
  | succ k ih => rw [Nat.succ_add, work_succ, ih, work_succ]

/-- Outside BUSY no micro-step does anything. -/
theorem work_of_not_busy (k : Nat) (s : State) (h : s.phase ≠ .busy) : work k s = s := by
  induction k with
  | zero => rfl
  | succ k ih =>
    have : microStep s = s := by
      cases hp : s.phase with
      | idle => exact microStep_of_idle s hp
      | busy => exact absurd hp h
      | done => exact microStep_of_done s hp
    rw [work_succ, this, ih]

/-- Micro-steps keep the command. -/
theorem work_keeps (k : Nat) (s : State) : SameCommand s (work k s) := by
  induction k generalizing s with
  | zero => exact .refl s
  | succ k ih => rw [work_succ]; exact (microStep_keeps s).1.trans (ih _)

/-- Everything a step in IDLE can do. -/
theorem onIdle_cases (s : State) :
    (s.now.cmdValid = false ∧ onIdle s = .next s.consume) ∨
    (s.now.cmdValid = true ∧ s.now.pace = .atOnce ∧
      onIdle s = exec (decodeWires (s.choose s.now.cmd)) s.opened) ∨
    (s.now.cmdValid = true ∧ ∃ k, s.now.pace = .ticks k ∧
      onIdle s = .next (work k (accept (decodeWires (s.choose s.now.cmd)) s.opened))) := by
  unfold onIdle
  split
  · next h =>
    split
    · next hp => exact .inr (.inl ⟨h, hp, rfl⟩)
    · next k hp => exact .inr (.inr ⟨h, k, hp, rfl⟩)
  · next h => exact .inl ⟨by simpa using h, rfl⟩

/-- Everything a step in BUSY can do. -/
theorem onBusy_cases (s : State) :
    (s.now.pace = .atOnce ∧ onBusy s = exec s.captured s.notePresented.consume) ∨
    (∃ k, s.now.pace = .ticks k ∧ onBusy s = .next (work k s.notePresented.consume)) := by
  unfold onBusy
  split
  · next h => exact .inl ⟨h, rfl⟩
  · next k h => exact .inr ⟨k, h, rfl⟩

/-- A step in DONE takes the response or holds it. -/
theorem onDone_cases (s : State) :
    (s.now.rspReady = true ∧ onDone s = s.notePresented.consume.take) ∨
    (s.now.rspReady = false ∧ onDone s = s.notePresented.consume) := by
  unfold onDone
  split
  · next h => exact .inl ⟨h, rfl⟩
  · next h => exact .inr ⟨by simpa using h, rfl⟩

/-- Which part of the machine a step is. -/
theorem step_cases (s : State) :
    (s.now.rst = true ∧ step s = .next (onReset s)) ∨
    (s.now.rst = false ∧ s.phase = .idle ∧ step s = onIdle s) ∨
    (s.now.rst = false ∧ s.phase = .busy ∧ step s = onBusy s) ∨
    (s.now.rst = false ∧ s.phase = .done ∧ step s = .next (onDone s)) := by
  unfold step
  split
  · next h => exact .inl ⟨h, rfl⟩
  · next h =>
    have h' : s.now.rst = false := by simpa using h
    split
    · next hp => exact .inr (.inl ⟨h', hp, rfl⟩)
    · next hp => exact .inr (.inr (.inl ⟨h', hp, rfl⟩))
    · next hp => exact .inr (.inr (.inr ⟨h', hp, rfl⟩))

end Sys2Proof.Machine
end

