-- ==== Sys2Proof/Tests/Slice0.lean ====
section
/-! SUPPORT. The model's own tests: decoding of words written out from 30_encoding.md R63, the well-formedness
checks, one or two steps per command with results taken from 95_test_vectors.md, and, for every statement with
hypotheses, a witness that meets them. -/

namespace Sys2Proof.Tests
open Sys2Proof.Machine

/-- The `len` bits of `bits` as a BitString, leftmost first: `bs 7 0b1011001` is "1011001". -/
def bs (len bits : Nat) : BitString := Operand.value { len := len, bits := bits }

/-- The state after one step, where there is one. -/
def after (s : State) : State :=
  match step s with
  | .next t => t
  | .fault _ => s
  | .refused _ => s

/-- The response of a core fresh from reset to a table word. -/
def answerTo (w : Nat) : Response := (after (State.reset.withFetchWord 48 w)).rsp

/-- The state after `exec`, where there is one. -/
def execState (i : Instr) (s : State) : State :=
  match exec i s with
  | .next t => t
  | .fault _ => s
  | .refused _ => s

/-! ### Decoding: the words of R63 for CAP = 16, written `b_bits b_len a_bits a_len op` -/

theorem test_decode_crcEnc :
    decodeTableWord 48 0b0000000000001011_00100_0000000001011001_00111_00
      = some (.crcEnc ⟨7, 0b1011001⟩ ⟨4, 0b1011⟩) := by decide

theorem test_decode_crcVfy :
    decodeTableWord 48 0b0000000000001011_00100_0000001011001011_01010_01
      = some (.crcVfy ⟨10, 0b1011001011⟩ ⟨4, 0b1011⟩) := by decide

theorem test_decode_hamEnc :
    decodeTableWord 48 0b1111111111111111_11111_1111111101011001_00111_10
      = some (.hamEnc ⟨7, 0b1111111101011001⟩ ⟨31, 0xffff⟩) := by decide

theorem test_decode_hamDec :
    decodeTableWord 48 0b0000000000000000_00000_0000010101111001_01011_11
      = some (.hamDec ⟨11, 0b10101111001⟩ ⟨0, 0⟩) := by decide

/-- Bits above `nbits` are 0: the bare opcode byte is the command with empty operands. -/
theorem test_decode_short_word : decodeTableWord 8 0x3 = some (.hamDec ⟨0, 0⟩ ⟨0, 0⟩) := by decide

/-- A number with a wire above `CMD_W - 1` set is refused by name. -/
theorem test_decode_refuses_wide : decodeWord 16 (2 ^ 44) = .error .widerThanCommand := rfl

theorem test_encode_crcEnc : encodeWord 16 (.crcEnc ⟨7, 0x59⟩ ⟨4, 0xb⟩) = 0x000b2002c9c := by decide

/-! ### Well-formedness: each field's own limit, and what is refused -/

theorem test_wellFormed_limit :
    Instr.wellFormed (.bounded 16) (.crcEnc ⟨31, 0xffff⟩ ⟨31, 0xffff⟩) = true := by decide
theorem test_wellFormed_refuses_aLen : Instr.wellFormed (.bounded 16) (.crcEnc ⟨32, 0⟩ ⟨0, 0⟩) = false := by decide
theorem test_wellFormed_refuses_aBits :
    Instr.wellFormed (.bounded 16) (.crcVfy ⟨0, 0x10000⟩ ⟨0, 0⟩) = false := by decide
theorem test_wellFormed_refuses_bLen : Instr.wellFormed (.bounded 16) (.hamEnc ⟨0, 0⟩ ⟨32, 0⟩) = false := by decide
theorem test_wellFormed_refuses_bBits :
    Instr.wellFormed (.bounded 16) (.hamDec ⟨0, 0⟩ ⟨0, 0x10000⟩) = false := by decide

/-! ### One step of each command, from reset (95_test_vectors.md V9.3, V8) -/

/-- V3: Example 1 corrected (90_conflicts.md C1). -/
theorem test_crcEnc : answerTo 0x000b2002c9c
    = { status := .ok, flag := false, r0 := bs 10 0b1011001011, r1 := bs 3 0b011, errpos := 0 } := by decide

/-- V8.1, cause 3: a key of length 1. -/
theorem test_crcEnc_short_key : answerTo 0x00010802c9c = Response.invalid := by decide

/-- V4.1: a codeword, and the same with position 5 flipped. -/
theorem test_crcVfy :
    (answerTo 0x000b20165a9).flag = true ∧ (answerTo 0x000b20175a9).flag = false := by decide

/-- V8.1, cause 6: a codeword shorter than its key. -/
theorem test_crcVfy_short : answerTo 0x000b200028d = Response.invalid := by decide

/-- V6.2, with B driven and the pad wires 1 (V9.4). -/
theorem test_hamEnc : answerTo 0xfffffffac9e
    = { status := .ok, flag := false, r0 := bs 11 0b10100111001, r1 := [], errpos := 0 } := by decide

/-- V8.1, cause 7: twelve data bits need seventeen. -/
theorem test_hamEnc_overflow : answerTo 0x00000055532 = Response.invalid := by decide

/-- V7.3: position 5 flipped. -/
theorem test_hamDec : answerTo 0x0000002bcaf
    = { status := .ok, flag := false, r0 := bs 11 0b10100111001, r1 := [], errpos := 5 } := by decide

/-- V8.3: a syndrome past the end. -/
theorem test_hamDec_range : answerTo 0x0000002d8af
    = { status := .syndromeRange, flag := false, r0 := bs 11 0b10110110001, r1 := [], errpos := 12 } := by decide

/-! ### Response words, the protocol, the serial core -/

/-- V9.2 and V8.3. -/
theorem test_response_words :
    encodeResponse 16 (answerTo 0x000b2002c9c) = 0x000006302cb50 ∧
      encodeResponse 16 (answerTo 0x0000002d8af) = 0x180000005b15a := by decide

/-- R67: a word with status 11 is from a broken core. -/
theorem test_response_refuses_eleven : decodeResponse 16 3 = .error .brokenCore := rfl

/-- A core with the command of `w` presented at a slow pace. -/
def slow (w k : Nat) (rest : List Tick) : State :=
  { State.reset with
    inputs := { rst := false, cmdValid := true, cmd := wordFields 16 w, rspReady := false, pace := .ticks k } :: rest }

/-- V10.1: accepted and BUSY; the divider's first window (R83). -/
theorem test_accept_busy :
    (after (slow 0x000b2002c9c 0 [])).phase = .busy ∧ (after (slow 0x000b2002c9c 0 [])).div.tmp = bs 4 0b1011 := by
  decide

/-- V2.2: after six micro-steps the window is 1000 and `PICK` is 10; the seventh answers. -/
theorem test_divider_trace :
    (after (slow 0x000b2002c9c 6 [])).div.tmp = bs 4 0b1000 ∧ (after (slow 0x000b2002c9c 6 [])).div.pick = 10 ∧
      (after (slow 0x000b2002c9c 7 [])).rsp.r1 = bs 3 0b011 := by decide

/-- R180: with no move left a BUSY core goes on; `CRC_ENC "1", "11"` takes one micro-step. -/
theorem test_busy_goes_on :
    (after (slow 0x31000084 0 [])).phase = .busy ∧ (after (after (slow 0x31000084 0 []))).phase = .done := by decide

/-- V10.4: reset abandons a command in flight. -/
theorem test_reset_abandons :
    (after (after (slow 0x000b2002c9c 0 [{ Tick.quiet with rst := true }]))).phase = .idle := by decide

/-- R72, in both directions. -/
theorem test_text :
    readCommand (commandLine (.crcEnc ⟨2, 0b10⟩ ⟨2, 0b11⟩)) = .ok (.crcEnc ⟨2, 0b10⟩ ⟨2, 0b11⟩) ∧
      readCommand ['H', 'A', 'M', '_', 'E', 'N', 'C', ' ', '"', '2', '"'] = .error (.notABit '2') := ⟨rfl, rfl⟩

/-! ### Witnesses: for each statement with hypotheses, values that meet them, at the edges of their ranges -/

theorem witness_DecodeOfEncodedCommand :
    Instr.wellFormed (.bounded 16) (.hamDec ⟨31, 0xffff⟩ ⟨31, 0xffff⟩) = true ∧
      Instr.wellFormed (.bounded 3) (.crcVfy ⟨3, 7⟩ ⟨0, 0⟩) = true := by decide

theorem witness_EncodeOfDecodedWord : 2 ^ 44 - 1 < 2 ^ cmdW 16 := by decide

theorem witness_OpcodeWiresSelectCommand :
    (0xb2002c9c &&& 3 = 0) ∧ (0xb20165a9 &&& 3 = 1) ∧ (0x2c9e &&& 3 = 2) ∧ (2 ^ 44 - 1) &&& 3 = 3 := by decide

theorem witness_ResponseWordReadsBack :
    Response.fits (.bounded 3)
      { status := .syndromeRange, flag := true, r0 := bs 3 7, r1 := bs 3 5, errpos := 7 } = true := by decide

theorem witness_BitStringElementsOnWires :
    bitAt (bs 7 0b1011001) 1 = (0b1011001 : Nat).testBit 6 ∧ bitAt (bs 7 0b1011001) 7 = (0b1011001 : Nat).testBit 0 := by
  decide

/-- Pad wires that differ, and an unused wire just above a string. -/
theorem witness_PadWiresIgnoredAndDrivenZero :
    (0xff59 % 2 ^ 7 = 0x0059 % 2 ^ 7) ∧ (bs 7 0x59).length ≤ 7 ∧
      Answers State.reset (.hamEnc ⟨7, 0xff59⟩ ⟨0, 0⟩)
        { status := .ok, flag := false, r0 := bs 11 0b10100111001, r1 := [], errpos := 0 } :=
  ⟨by decide, by decide, _, rfl, rfl, by decide⟩

theorem witness_HammingIgnoresOperandB :
    Answers State.reset (.hamEnc ⟨1, 1⟩ ⟨31, 0xffff⟩) { status := .ok, flag := false, r0 := bs 3 7, r1 := [], errpos := 0 } ∧
      Answers State.reset (.hamDec ⟨1, 1⟩ ⟨31, 0xffff⟩) { status := .ok, flag := false, r0 := bs 1 0, r1 := [], errpos := 1 } :=
  ⟨⟨_, rfl, rfl, by decide⟩, ⟨_, rfl, rfl, by decide⟩⟩

/-- The causes of R151, each at its edge, for CAP = 16. -/
theorem witness_InvalidCausesByCommand :
    invalid (.bounded 16) 0b00#2 12 5 = false ∧ invalid (.bounded 16) 0b00#2 13 5 = true ∧
    invalid (.bounded 16) 0b00#2 7 1 = true ∧ invalid (.bounded 16) 0b00#2 1 17 = true ∧
    invalid (.bounded 16) 0b01#2 16 16 = false ∧ invalid (.bounded 16) 0b01#2 3 4 = true ∧
    invalid (.bounded 16) 0b10#2 11 31 = false ∧ invalid (.bounded 16) 0b10#2 12 0 = true ∧
    invalid (.bounded 16) 0b11#2 16 0 = false ∧ invalid (.bounded 16) 0b11#2 17 0 = true ∧
    invalid (.bounded 16) 0b11#2 0 0 = true := by decide

theorem witness_InvalidCommandOnlyAnswersFault :
    validInstr (.bounded 16) (.crcEnc ⟨7, 0⟩ ⟨1, 0⟩) = false ∧ validInstr (.bounded 16) (.crcVfy ⟨3, 0⟩ ⟨4, 0⟩) = false ∧
      validInstr (.bounded 16) (.hamEnc ⟨12, 0⟩ ⟨0, 0⟩) = false ∧ validInstr (.bounded 16) (.hamDec ⟨0, 0⟩ ⟨0, 0⟩) = false := by
  decide

theorem witness_CrcEncAnswersCodeword :
    validCrcEnc State.reset.cap 12 5 = true ∧ validCrcEnc State.reset.cap 1 16 = true ∧ validCrcEnc .unbounded 1 2 = true := by
  decide

theorem witness_CrcVfyAnswersVerdict :
    validCrcVfy State.reset.cap 16 16 = true ∧ validCrcVfy State.reset.cap 2 2 = true := by decide

/-- A `CRC_ENC` whose response is known: `CRC_ENC "1011001", "1011"` (V3). -/
theorem answers_crcEnc :
    Answers State.reset (.crcEnc ⟨7, 0x59⟩ ⟨4, 0xb⟩)
      { status := .ok, flag := false, r0 := bs 10 0b1011001011, r1 := bs 3 0b011, errpos := 0 } :=
  ⟨execState (.crcEnc ⟨7, 0x59⟩ ⟨4, 0xb⟩) State.reset, rfl, rfl, by decide⟩

theorem witness_CrcEncResultShape :
    validCrcEnc State.reset.cap 7 4 = true ∧
      Answers State.reset (.crcEnc ⟨7, 0x59⟩ ⟨4, 0xb⟩)
        { status := .ok, flag := false, r0 := bs 10 0b1011001011, r1 := bs 3 0b011, errpos := 0 } :=
  ⟨by decide, answers_crcEnc⟩

theorem witness_CrcRoundTripVerifies :
    (State.resetWith (.bounded 16)).cap = State.reset.cap ∧ validCrcEnc State.reset.cap 7 4 = true ∧
      Answers State.reset (.crcEnc ⟨7, 0x59⟩ ⟨4, 0xb⟩)
        { status := .ok, flag := false, r0 := bs 10 0b1011001011, r1 := bs 3 0b011, errpos := 0 } :=
  ⟨rfl, by decide, answers_crcEnc⟩

/-- V4.3: the key at the right end, in the middle and at the left end of the codeword. -/
theorem witness_CrcUndetectedPatterns :
    Capacity.admits (.bounded 16) (bs 10 0b1011001011).length = true ∧ 2 ≤ (bs 4 0b1011).length ∧
      (bs 4 0b1011).length ≤ (bs 10 0b1011001011).length ∧ (bs 10 0b0010110000).length = (bs 10 0b1011001011).length ∧
      (responseOf (.bounded 16) (.crcVfy (.ofBits (bs 10 0b1011001011)) (.ofBits (bs 4 0b1011)))).flag = true ∧
      6 + (bs 4 0b1011).length + 0 = (bs 10 0b1011001011).length ∧
      0 + (bs 4 0b1011).length + 6 = (bs 10 0b1011001011).length := by decide

/-- V4.2 and V4.4: a key with a 1 below its leading bit, and one without. -/
theorem witness_CrcSingleFlipDetection :
    (responseOf (.bounded 16) (.crcVfy (.ofBits (bs 10 0b1011001011)) (.ofBits (bs 4 0b1011)))).flag = true ∧
      isZero (bs 4 0b1011).tail = false ∧
      (responseOf (.bounded 16) (.crcVfy (.ofBits (bs 5 0b11010)) (.ofBits (bs 2 0b10)))).flag = true ∧
      isZero (bs 2 0b10).tail = true ∧ 1 ≤ 4 ∧ 5 ≤ (bs 5 0b11010).length ∧ 2 ≤ (bs 2 0b10).length := by decide

theorem witness_CrcLeadingKeyBitIgnored :
    (2 ≤ (Operand.mk 4 0xb).len ∧
      Answers State.reset (.crcEnc ⟨7, 0x59⟩ ⟨4, 0xb⟩)
        { status := .ok, flag := false, r0 := bs 10 0b1011001011, r1 := bs 3 0b011, errpos := 0 } ∧
      Answers State.reset (.crcVfy ⟨4, 0xb⟩ ⟨4, 0xb⟩) { status := .ok, flag := true, r0 := [], r1 := [], errpos := 0 }) ∧
      4 ≤ (bs 4 0).length :=
  ⟨⟨by decide, answers_crcEnc, _, rfl, rfl, by decide⟩, by decide⟩

theorem witness_XorAndSelectByElement :
    (bs 4 0b1001).length = (bs 4 0b1101).length ∧ bitAt (bs 4 0b1000) 1 = true ∧ bitAt (bs 4 0b0100) 1 = false := by decide

theorem witness_DividerNeverReadsKeyLeadingBit :
    1 ≤ (bs 1 1).length ∧ (bs 1 1).length + 1 ≤ (bs 2 0b10).length := by decide

theorem witness_DividerEqualsSerialForm :
    2 ≤ (bs 4 0b1011).length ∧ (bs 4 0b1011).length ≤ (bs 4 0b1010).length ∧
      (bs 4 0b1011).length + 6 ≤ (bs 10 0b1011001000).length ∧ (bs 3 0b101).length < (bs 4 0b1011).length := by decide

theorem witness_DividerIsPolynomialRemainder :
    2 ≤ (bs 2 0b11).length ∧ (bs 2 0b11).length ≤ (bs 2 0b10).length := by decide

theorem witness_DividerIsLinear :
    2 ≤ (bs 4 0b1011).length ∧ (bs 4 0b0110).length = (bs 4 0b1010).length ∧
      (bs 4 0b1011).length ≤ (bs 4 0b1010).length ∧ (bs 3 0b101).length = (bs 4 0b1011).length - 1 ∧ 1 ≤ (bs 1 1).length := by
  decide

theorem witness_DividerOneStepWhenLengthsEqual :
    (bs 4 0b1010).length = (bs 4 0b1011).length ∧ bitAt (bs 4 0b1010) 1 = true ∧ bitAt (bs 4 0b0110) 1 = false := by decide

/-- P6: `D = "1011001100"`, `K = "1011"`. -/
theorem witness_BareRemainderFromCrcEnc :
    State.reset.cap.admits (bs 10 0b1011001100).length = true ∧
      Answers State.reset (.crcEnc (.ofBits (sub (bs 10 0b1011001100) 1 (10 - (4 - 1)))) (.ofBits (bs 4 0b1011)))
        { status := .ok, flag := false, r0 := bs 10 0b1011001011, r1 := bs 3 0b011, errpos := 0 } :=
  ⟨by decide, _, rfl, rfl, by decide⟩

theorem witness_HamEncAnswersCodeword :
    validHamEnc State.reset.cap 1 = true ∧ validHamEnc State.reset.cap 11 = true := by decide

/-- The three ways of R131 at `m = 2`: syndrome 0, a position, past the end. -/
theorem witness_HamDecAnswersCorrection :
    validHamDec State.reset.cap 2 = true ∧ validHamDec State.reset.cap 16 = true ∧ syndrome (bs 2 0b00) = 0 ∧
      syndrome (bs 2 0b01) = 2 ∧ syndrome (bs 2 0b11) = 3 := by decide

/-- V5.1 and V5.2. -/
theorem witness_parity_counts :
    rEnc 1 = 2 ∧ rEnc 4 = 3 ∧ rEnc 5 = 4 ∧ rDec 1 = 1 ∧ rDec 15 = 4 ∧ rDec 16 = 5 := by decide

theorem witness_DataPositionsHoldData : 1 ≤ (bs 1 1).length ∧ 3 ∈ dataPositions 11 ∧ 8 ∉ dataPositions 11 := by decide

theorem witness_EncoderReachableLengths :
    3 = 1 + rEnc 1 ∧ Capacity.admits (.bounded 16) (2 ^ 4) = true ∧ Capacity.admits (.bounded 16) (2 ^ 0) = true := by decide

/-- V5.3. -/
theorem witness_CoverageByBits :
    cover 1 11 = [1, 3, 5, 7, 9, 11] ∧ cover 8 11 = [8, 9, 10, 11] ∧ 2 ^ 3 ≤ 11 := by decide

theorem witness_ParityBitIsXorOfItsGroup : 1 ≤ (bs 7 0x59).length ∧ 3 < rEnc (bs 7 0x59).length := by decide

/-- A `HAM_ENC` whose response is known: `HAM_ENC "1011001"` (V6.2). -/
theorem answers_hamEnc :
    Answers State.reset (.hamEnc ⟨7, 0x59⟩ ⟨0, 0⟩)
      { status := .ok, flag := false, r0 := bs 11 0b10100111001, r1 := [], errpos := 0 } :=
  ⟨execState (.hamEnc ⟨7, 0x59⟩ ⟨0, 0⟩) State.reset, rfl, rfl, by decide⟩

theorem witness_EncodedChecksAreEven :
    validHamEnc State.reset.cap 7 = true ∧ 3 < rEnc 7 ∧
      Answers State.reset (.hamEnc ⟨7, 0x59⟩ ⟨0, 0⟩)
        { status := .ok, flag := false, r0 := bs 11 0b10100111001, r1 := [], errpos := 0 } :=
  ⟨by decide, by decide, answers_hamEnc⟩

theorem witness_SyndromeIsXorOfOnes :
    (bs 2 0b01).length = (bs 2 0b10).length ∧ 1 ≤ 2 ∧ 2 ≤ (bs 2 0b10).length := by decide

theorem witness_CleanCodewordDecodesClean :
    (State.resetWith (.bounded 16)).cap = State.reset.cap ∧ validHamEnc State.reset.cap 7 = true ∧
      Answers State.reset (.hamEnc ⟨7, 0x59⟩ ⟨0, 0⟩)
        { status := .ok, flag := false, r0 := bs 11 0b10100111001, r1 := [], errpos := 0 } :=
  ⟨rfl, by decide, answers_hamEnc⟩

/-- The first and the last position of the codeword can be the flipped one. -/
theorem witness_SingleFlipIsCorrected :
    (State.resetWith (.bounded 16)).cap = State.reset.cap ∧ validHamEnc State.reset.cap 7 = true ∧
      1 ≤ (bs 11 0b10100111001).length ∧ 11 ≤ (bs 11 0b10100111001).length ∧
      Answers State.reset (.hamEnc ⟨7, 0x59⟩ ⟨0, 0⟩)
        { status := .ok, flag := false, r0 := bs 11 0b10100111001, r1 := [], errpos := 0 } :=
  ⟨rfl, by decide, by decide, by decide, answers_hamEnc⟩

theorem witness_SyndromeRange :
    1 ≤ (bs 16 0x8001).length ∧ (bs 16 0x8001).length ≤ 16 ∧ syndrome (bs 16 0x8001) = 17 ∧
      (¬ ∃ r, (2 : Nat) = 2 ^ r - 1) ∧ 1 ≤ (bs 1 0).length ∧ 1 ≤ (hamCodeword (bs 1 0)).length := by
  refine ⟨by decide, by decide, by decide, ?_, by decide, by decide⟩
  rintro ⟨r, h⟩
  match r with
  | 0 => simp at h
  | 1 => simp at h
  | r + 2 =>
    have : 1 ≤ 2 ^ r := Nat.one_le_two_pow
    rw [show 2 ^ (r + 2) = 4 * 2 ^ r by ring] at h
    omega

/-- V7.4: one pair of flips inside the codeword (1 and 2), one past its end (5 and 11). -/
theorem witness_DoubleFlipResponse :
    validHamEnc State.reset.cap 7 = true ∧ 1 ^^^ 2 ≤ (bs 11 0b10100111001).length ∧
      (bs 11 0b10100111001).length < 5 ^^^ 11 ∧ 11 ≤ (bs 11 0b10100111001).length ∧
      Answers State.reset (.hamEnc ⟨7, 0x59⟩ ⟨0, 0⟩)
        { status := .ok, flag := false, r0 := bs 11 0b10100111001, r1 := [], errpos := 0 } :=
  ⟨by decide, by decide, by decide, by decide, answers_hamEnc⟩

theorem witness_ResetOverridesEverything :
    ({ State.reset with inputs := [{ Tick.quiet with rst := true }] } : State).now.rst = true := by decide

/-- An IDLE core with a held command on its wires. -/
theorem witness_StepRunsPresentedCommand :
    let s : State := { State.reset.presenting (wordFields 16 0x18b) with presented := [wordFields 16 0x18b] }
    s.phase = .idle ∧ s.now.rst = false ∧ s.now.cmdValid = true ∧ s.now.pace = .atOnce ∧ s.wiresHeld = true ∧
      s.presented.Nodup := by decide

theorem witness_StepRunsTableWord : (decodeTableWord 48 0x18b).isSome = true := by decide

/-- A valid command, on wires held since an earlier step, and an invalid one, on fresh wires, presented to an IDLE
core that makes no micro-step. -/
theorem witness_AcceptCapturesAndChecks :
    (let s : State := { slow 0x18b 0 [] with presented := [wordFields 16 0x18b] }
     s.phase = .idle ∧ s.now.rst = false ∧ s.now.cmdValid = true ∧ s.now.pace = .ticks 0 ∧ s.wiresHeld = true ∧
       s.presented.Nodup ∧ validInstr s.cap (decodeWires s.now.cmd) = true) ∧
      (let s := slow 3 0 []
       s.now.rst = false ∧ s.now.pace = .ticks 0 ∧ s.wiresHeld = true ∧ s.presented.Nodup ∧
         validInstr s.cap (decodeWires s.now.cmd) = false) := by decide

theorem witness_CommandWiresIgnoredOutsideIdle :
    ∃ t, (after (slow 0x18b 0 [Tick.quiet])).phase ≠ .idle ∧
      (after (slow 0x18b 0 [Tick.quiet])).inputs = Tick.quiet :: [] ∧
      step (after (slow 0x18b 0 [Tick.quiet])) = .next t := ⟨_, by decide, rfl, rfl⟩

theorem witness_ResponseHeldUntilTaken :
    (execState (.hamDec ⟨2, 3⟩ ⟨0, 0⟩) State.reset).phase = .done ∧
      (∀ n ∈ (execState (.hamDec ⟨2, 3⟩ ⟨0, 0⟩) State.reset).inputs.take 3, n.rst = false ∧ n.rspReady = false) ∧
      ∃ t, Host.Core.run Sys2Proof.core 3 (execState (.hamDec ⟨2, 3⟩ ⟨0, 0⟩) State.reset) = .next t :=
  ⟨by decide, by decide, _, rfl⟩

theorem witness_TakeReturnsToIdle :
    let s := { execState (.hamDec ⟨2, 3⟩ ⟨0, 0⟩) State.reset with inputs := [{ Tick.quiet with rspReady := true }] }
    s.now.rst = false ∧ s.phase = .done ∧ s.now.rspReady = true := by decide

theorem witness_CaptureTakesAPresentedCommand :
    [wordFields 16 0x18b].Nodup ∧ ∀ d ∈ [wordFields 16 0x18b], d = wordFields 16 0x18b := by decide

theorem witness_MicroStepsComputeExec :
    validInstr State.reset.cap (.crcEnc ⟨7, 0x59⟩ ⟨4, 0xb⟩) = true ∧ 6 < referenceSteps (.crcEnc ⟨7, 0x59⟩ ⟨4, 0xb⟩) := by
  decide

theorem witness_DividerWindowProgress :
    2 ≤ (bs 4 0b1011).length ∧ (bs 4 0b1011).length + 6 ≤ (bs 10 0b1011001000).length := by decide

/-- A core just after acceptance is coherent, and fits. -/
theorem witness_busy_coherent :
    let s := accept (.hamDec ⟨2, 3⟩ ⟨0, 0⟩) State.reset
    s.Coherent ∧ s.phase = .busy ∧ s.cap.legal = true ∧ s.latchesFit = true ∧ s.wiresFit = true ∧
      referenceSteps s.captured ≤ 6 ∧ ∃ t, step s = .next t :=
  ⟨⟨by decide, 0, State.reset, by decide, rfl⟩, by decide, by decide, by decide, by decide, by decide, _, rfl⟩

/-- A BUSY core whose host has one move left, one that delays the core and resets nothing. -/
theorem witness_BusyCoreAnswersOnEverySchedule :
    let s := accept (.hamDec ⟨2, 3⟩ ⟨0, 0⟩) { State.reset with inputs := [{ Tick.quiet with pace := .ticks 0 }] }
    s.Coherent ∧ s.phase = .busy ∧ ∀ n ∈ s.inputs, n.rst = false :=
  ⟨⟨by decide, 0, { State.reset with inputs := [{ Tick.quiet with pace := .ticks 0 }] }, by decide, rfl⟩,
    by decide, by decide⟩

/-- A core with a response waiting is coherent. -/
theorem witness_done_coherent : (execState (.hamDec ⟨2, 3⟩ ⟨0, 0⟩) State.reset).Coherent :=
  show (execState (.hamDec ⟨2, 3⟩ ⟨0, 0⟩) State.reset).rsp = responseOf _ _ from rfl

end Sys2Proof.Tests
end

/-! PROOFS. The handshake ports of a state, and the state after reset (10_state.md R33, R34, R36;
70_reset_and_hazards.md R170, R171). -/

namespace Sys2Proof.Machine

@[simp] theorem State.cmdReady_eq_true_iff (s : State) :
    s.cmdReady = true ↔ s.phase = .idle ∧ s.now.rst = false := by
  simp [State.cmdReady]

@[simp] theorem State.rspValid_eq_false_iff (s : State) :
    s.rspValid = false ↔ (s.phase = .done → s.now.rst = true) := by
  simp [State.rspValid]

@[simp] theorem State.resetWith_phase (cap : Capacity) : (State.resetWith cap).phase = .idle := rfl

@[simp] theorem State.resetWith_cap (cap : Capacity) : (State.resetWith cap).cap = cap := rfl

/-- After reset no host move is scheduled, so the wires are those of a host that does nothing. -/
@[simp] theorem State.resetWith_now (cap : Capacity) : (State.resetWith cap).now = .quiet := rfl

@[simp] theorem Tick.quiet_rst : Tick.quiet.rst = false := rfl

/-- R33's output `cmd_ready` after reset: IDLE, and `rst` no longer asserted. -/
theorem State.resetWith_cmdReady (cap : Capacity) : (State.resetWith cap).cmdReady = true :=
  (State.cmdReady_eq_true_iff _).2 ⟨State.resetWith_phase cap, by simp⟩

/-- R33's output `rsp_valid` after reset: IDLE is not DONE, so nothing is offered. -/
theorem State.resetWith_rspValid (cap : Capacity) : (State.resetWith cap).rspValid = false :=
  (State.rspValid_eq_false_iff _).2 fun hdone => by simp at hdone

/-- Settles O41: R33's specified values, from the phase of the reset state and what the two outputs say of it. -/
theorem resetIsIdleAndReady : Obligations.ResetIsIdleAndReady :=
  ⟨State.resetWith_phase _, fun cap =>
    ⟨State.resetWith_phase cap, State.resetWith_cmdReady cap, State.resetWith_rspValid cap, State.resetWith_cap cap⟩⟩

end Sys2Proof.Machine

/-! PROOFS. A BitString on its wires: the bit order in both directions (20_memory.md R41). -/

namespace Sys2Proof.Machine

/-- Two BitStrings of one length with the same elements (R2) are one BitString. -/
theorem ext_bitAt {s t : BitString} (hlen : s.length = t.length)
    (hbit : ∀ i, 1 ≤ i → i ≤ s.length → bitAt s i = bitAt t i) : s = t := by
  refine List.ext_getElem hlen fun k hs ht => ?_
  have hk := hbit (k + 1) (by omega) (by omega)
  simpa [hs, ht] using hk

theorem bitAt_append_left (s t : BitString) (i : Nat) (h : i ≤ s.length) : bitAt (s ++ t) i = bitAt s i := by
  cases i with
  | zero => rfl
  | succ k =>
    rw [bitAt_succ, bitAt_succ, List.getD_append _ _ _ _ (by omega)]

theorem bitAt_append_last (s : BitString) (b : Bit) : bitAt (s ++ [b]) (s.length + 1) = b := by
  simp

/-- R41 on an operand port: element `i` is read off wire `len - i`. -/
theorem bitAt_value (x : Operand) (i : Nat) (h1 : 1 ≤ i) (h2 : i ≤ x.len) :
    bitAt x.value i = x.bits.testBit (x.len - i) := by
  obtain ⟨k, rfl⟩ : ∃ k, i = k + 1 := ⟨i - 1, by omega⟩
  have hk : k < x.len := by omega
  simp [Operand.value, positions, hk, Nat.add_comm 1 k]

@[simp] theorem ofBits_len (s : BitString) : (Operand.ofBits s).len = s.length := rfl

@[simp] theorem ofBits_bits (s : BitString) : (Operand.ofBits s).bits = bitsNat s := rfl

@[simp] theorem bitsNat_append_last (s : BitString) (b : Bit) : bitsNat (s ++ [b]) = 2 * bitsNat s + b.toNat := by
  simp [bitsNat]

/-- R41 and R42 on a result port: wire `k` carries element `len - k`, which from wire `len` upward is element 0, so
no element, and reads as 0. -/
theorem testBit_bitsNat (s : BitString) (k : Nat) : (bitsNat s).testBit k = bitAt s (s.length - k) := by
  induction s using List.reverseRecOn generalizing k with
  | nil => simp [bitsNat, bitAt]
  | append_singleton s b ih =>
    rw [bitsNat_append_last, List.length_append, List.length_singleton]
    cases k with
    | zero =>
      rw [Nat.sub_zero, bitAt_append_last]
      cases b <;> simp
    | succ k =>
      have hhalf : (2 * bitsNat s + b.toNat) / 2 = bitsNat s := by
        have := b.toNat_lt
        omega
      rw [Nat.testBit_succ, hhalf, ih, Nat.add_sub_add_right, bitAt_append_left _ _ _ (Nat.sub_le _ _)]

/-- Element `i` of a BitString stands on wire `len - i` of its port. -/
theorem testBit_bitsNat_sub (s : BitString) (i : Nat) (h : i ≤ s.length) :
    (bitsNat s).testBit (s.length - i) = bitAt s i := by
  rw [testBit_bitsNat, Nat.sub_sub_self h]

/-- A BitString put on a port is the BitString assembled from it. -/
@[simp] theorem value_ofBits (s : BitString) : (Operand.ofBits s).value = s := by
  refine ext_bitAt (value_length _) fun i h1 h2 => ?_
  have hi : i ≤ s.length := by simpa using h2
  rw [bitAt_value _ i h1 hi, ofBits_bits, ofBits_len, testBit_bitsNat_sub s i hi]

/-- Settles O7: an operand's elements by `bitAt_value`, a result's by `testBit_bitsNat_sub`, and the two together give
the BitString back. -/
theorem bitStringElementsOnWires : Obligations.BitStringElementsOnWires :=
  ⟨fun x => ⟨value_length x, bitAt_value x⟩,
    fun s => ⟨ofBits_len s, value_ofBits s, fun i _ h => testBit_bitsNat_sub s i h⟩⟩

end Sys2Proof.Machine

/-! PROOFS. What a core answers to a command, as a function of the operands' lengths and BitStrings; so pad wires take
no part in it (20_memory.md R42). -/

namespace Sys2Proof.Machine

/-- The one response a core in state `s` gives to a command (R65, R153); `answers_iff` ties it to `exec`. -/
def State.replyTo (s : State) : Instr → Response
  | .crcEnc a b =>
    if invalid s.cap 0b00#2 a.len b.len then .invalid
    else .crcEnc a.value (mod2div (padded a.value b.value) b.value)
  | .crcVfy a b =>
    if invalid s.cap 0b01#2 a.len b.len then .invalid else .crcVfy (mod2div a.value b.value)
  | .hamEnc a b =>
    if invalid s.cap 0b10#2 a.len b.len then .invalid else .hamEnc (s.ham.encode a.value).cw
  | .hamDec a b =>
    if invalid s.cap 0b11#2 a.len b.len then .invalid
    else .hamDec (s.ham.decode a.value).cw (s.ham.decode a.value).errAcc

/-- Every command, valid or not, ends in an answer, and the answer is `replyTo`. -/
theorem exec_eq_answer_replyTo (i : Instr) (s : State) : ∃ t : State, exec i s = .next (t.answer (s.replyTo i)) := by
  cases i with
  | crcEnc a b =>
    simp only [exec, execCrcEnc, State.replyTo]
    split <;> exact ⟨_, rfl⟩
  | crcVfy a b =>
    simp only [exec, execCrcVfy, State.replyTo]
    split <;> exact ⟨_, rfl⟩
  | hamEnc a b =>
    simp only [exec, execHamEnc, State.replyTo]
    split <;> exact ⟨_, rfl⟩
  | hamDec a b =>
    simp only [exec, execHamDec, State.replyTo]
    split <;> exact ⟨_, rfl⟩

theorem answers_iff (s : State) (i : Instr) (r : Response) : Answers s i r ↔ s.replyTo i = r := by
  obtain ⟨t, ht⟩ := exec_eq_answer_replyTo i s
  simp [Answers, ht]

/-- An operand with its pad wires at 0: the wires below the length are all that is left. -/
def unpadded (x : Operand) : Operand := { x with bits := x.bits % 2 ^ x.len }

@[simp] theorem unpadded_len (x : Operand) : (unpadded x).len = x.len := rfl

/-- R42 on an operand port: no element of the BitString is on a pad wire. -/
@[simp] theorem unpadded_value (x : Operand) : (unpadded x).value = x.value := by
  refine ext_bitAt (by simp) fun i h1 h2 => ?_
  have hi : i ≤ x.len := by simpa using h2
  have hwire : x.len - i < x.len := by omega
  rw [bitAt_value (unpadded x) i h1 hi, bitAt_value x i h1 hi]
  simp [unpadded, Nat.testBit_mod_two_pow, hwire]

theorem unpadded_eq {x y : Operand} (hlen : x.len = y.len) (hbits : x.bits % 2 ^ x.len = y.bits % 2 ^ y.len) :
    unpadded x = unpadded y := by
  simp only [unpadded, hbits]
  rw [hlen]

/-- The command wires with both operands' pad wires at 0. -/
def unpaddedWires (c : CmdWires) : CmdWires := { c with a := unpadded c.a, b := unpadded c.b }

/-- `replyTo` reads an operand by its length and its BitString only, and `unpadded` keeps both. -/
theorem replyTo_decodeWires_unpaddedWires (s : State) (c : CmdWires) :
    s.replyTo (decodeWires (unpaddedWires c)) = s.replyTo (decodeWires c) := by
  simp only [decodeWires, unpaddedWires]
  split <;> simp [State.replyTo]

/-- R42 on a result port: every wire at or above the length is 0. -/
theorem testBit_bitsNat_of_length_le (s : BitString) (k : Nat) (h : s.length ≤ k) : (bitsNat s).testBit k = false := by
  rw [testBit_bitsNat, Nat.sub_eq_zero_of_le h, bitAt_zero]

/-- Settles O8: two commands that differ in pad wires alone are one command once those are put to 0, and putting them
to 0 changes no response; result wires by `testBit_bitsNat_of_length_le`. -/
theorem padWiresIgnoredAndDrivenZero : Obligations.PadWiresIgnoredAndDrivenZero := by
  refine ⟨fun s c d r hop halen hblen habits hbbits hc => ?_, testBit_bitsNat_of_length_le⟩
  have hsame : unpaddedWires c = unpaddedWires d := by
    simp only [unpaddedWires, hop, unpadded_eq halen habits, unpadded_eq hblen hbbits]
  rw [answers_iff] at hc ⊢
  rw [← hc, ← replyTo_decodeWires_unpaddedWires s d, ← hsame, replyTo_decodeWires_unpaddedWires s c]

end Sys2Proof.Machine

/-! PROOFS. The opcode wires: which command they select, in a word and on the ports (30_encoding.md R61, R63), and that
a command for the Hamming unit reads nothing of operand B (30_encoding.md R69). -/

namespace Sys2Proof.Machine

theorem decodeWord_of_lt {cap w : Nat} (h : w < 2 ^ cmdW cap) :
    decodeWord cap w = .ok (decodeWires (wordFields cap w)) := if_pos h

/-- R63: the opcode is wires 1 and 0 of the word, at every capacity. -/
theorem wordFields_op_toNat (cap w : Nat) : (wordFields cap w).op.toNat = w &&& 3 := by
  have hmask : w &&& 3 = w % 2 ^ 2 := Nat.and_two_pow_sub_one_eq_mod w 2
  simp [wordFields, slice, hmask]

/-! ### R61's map, one row at a time -/

theorem decodeWires_of_op_zero {c : CmdWires} (h : c.op.toNat = 0) : decodeWires c = .crcEnc c.a c.b := by
  simp only [decodeWires, h]

theorem decodeWires_of_op_one {c : CmdWires} (h : c.op.toNat = 1) : decodeWires c = .crcVfy c.a c.b := by
  simp only [decodeWires, h]

theorem decodeWires_of_op_two {c : CmdWires} (h : c.op.toNat = 2) : decodeWires c = .hamEnc c.a c.b := by
  simp only [decodeWires, h]

theorem decodeWires_of_op_three {c : CmdWires} (h : c.op.toNat = 3) : decodeWires c = .hamDec c.a c.b := by
  simp only [decodeWires, h]

/-- Settles O3: the word decodes as its fields do, and its opcode field is the word AND 3; the operands are the word's
other fields, whichever command it is. -/
theorem opcodeWiresSelectCommand : Obligations.OpcodeWiresSelectCommand := by
  intro cap w hw
  rw [decodeWord_of_lt hw, ← wordFields_op_toNat cap w]
  refine ⟨(wordFields cap w).a, (wordFields cap w).b, fun h => ?_, fun h => ?_, fun h => ?_, fun h => ?_⟩
  · rw [decodeWires_of_op_zero h]
  · rw [decodeWires_of_op_one h]
  · rw [decodeWires_of_op_two h]
  · rw [decodeWires_of_op_three h]

/-! ### Operand B of a Hamming command -/

/-- R69 at the validity check: with `op[1]` at 1 no cause of R151 reads the length of operand B. -/
theorem invalid_congr_bLen_of_hamming (op : BitVec 2) (hop : op.getLsbD 1 = true) (cap : Capacity) (aLen y y' : Nat) :
    invalid cap op aLen y = invalid cap op aLen y' := by
  have henc : op ≠ 0b00#2 := by rintro rfl; exact absurd hop (by decide)
  have hvfy : op ≠ 0b01#2 := by rintro rfl; exact absurd hop (by decide)
  simp only [invalid, hop, henc, hvfy, Bool.not_true, Bool.false_and, decide_false]

theorem replyTo_hamEnc_congr_b (s : State) (a b b' : Operand) :
    s.replyTo (.hamEnc a b) = s.replyTo (.hamEnc a b') := by
  simp only [State.replyTo, invalid_congr_bLen_of_hamming 0b10#2 rfl s.cap a.len b.len b'.len]

theorem replyTo_hamDec_congr_b (s : State) (a b b' : Operand) :
    s.replyTo (.hamDec a b) = s.replyTo (.hamDec a b') := by
  simp only [State.replyTo, invalid_congr_bLen_of_hamming 0b11#2 rfl s.cap a.len b.len b'.len]

/-- Settles O9: the answer is `replyTo`, which reads operand B of a Hamming command in the validity check at most, and
there it has no effect. -/
theorem hammingIgnoresOperandB : Obligations.HammingIgnoresOperandB := by
  intro s a b b' r
  simp only [answers_iff]
  exact ⟨(replyTo_hamEnc_congr_b s a b' b).trans, (replyTo_hamDec_congr_b s a b' b).trans⟩

end Sys2Proof.Machine

/-! PROOFS. `xor` and the conditional divisor (40_gf2_divider.md R80, R81): element by element, and how they pass
through concatenation and the dropping of the leading bit. -/

namespace Sys2Proof.Machine

/-! ### `xor` -/

@[simp] theorem xorBits_cons_cons (x y : Bit) (a b : BitString) :
    xorBits (x :: a) (y :: b) = Bool.xor x y :: xorBits a b := rfl

theorem bitAt_xorBits (a b : BitString) (i : Nat) (ha : i ≤ a.length) (hb : i ≤ b.length) :
    bitAt (xorBits a b) i = Bool.xor (bitAt a i) (bitAt b i) := by
  cases i with
  | zero => rfl
  | succ n =>
    have hn : n < a.length ∧ n < b.length := ⟨ha, hb⟩
    simp [xorBits, hn.1, hn.2]

theorem xorBits_append {a b : BitString} (a' b' : BitString) (h : a.length = b.length) :
    xorBits (a ++ a') (b ++ b') = xorBits a b ++ xorBits a' b' := List.zipWith_append h

theorem tail_xorBits (a b : BitString) : (xorBits a b).tail = xorBits a.tail b.tail := List.tail_zipWith

theorem xorBits_zeros (a : BitString) : xorBits a (zeros a.length) = a := by
  refine List.ext_getElem (by simp) fun i _ _ => ?_
  simp [xorBits, zeros]

theorem zeros_xorBits (a : BitString) : xorBits (zeros a.length) a = a := by
  refine List.ext_getElem (by simp) fun i _ _ => ?_
  simp [xorBits, zeros]

theorem xorBits_self (a : BitString) : xorBits a a = zeros a.length := by
  refine List.ext_getElem (by simp) fun i _ _ => ?_
  simp [xorBits, zeros]

/-- The two middle operands of four change places. -/
theorem xorBits_xorBits_xorBits_comm (a b c d : BitString) :
    xorBits (xorBits a b) (xorBits c d) = xorBits (xorBits a c) (xorBits b d) := by
  refine List.ext_getElem (by simp; omega) fun i _ _ => ?_
  simp only [xorBits, List.getElem_zipWith, Bool.xor_assoc]
  exact congrArg _ (Bool.xor_left_comm _ _ _)

/-! ### The conditional divisor -/

theorem sel_of_leading_one {t : BitString} (k : BitString) (h : bitAt t 1 = true) : sel t k = k := if_pos h

theorem sel_of_leading_zero {t : BitString} (k : BitString) (h : bitAt t 1 = false) : sel t k = zeros k.length := by
  simp only [sel, h, Bool.false_eq_true, if_false]

@[simp] theorem tail_zeros (n : Nat) : (zeros n).tail = zeros (n - 1) := List.tail_replicate

/-- Below the leading bit, the conditional divisor is chosen from the key's tail alone. -/
theorem tail_sel (t k : BitString) : (sel t k).tail = sel t k.tail := by
  cases h : bitAt t 1 with
  | true => rw [sel_of_leading_one k h, sel_of_leading_one k.tail h]
  | false => rw [sel_of_leading_zero k h, sel_of_leading_zero k.tail h, tail_zeros, List.length_tail]

/-- Only the leading bit of the window is read, so what is appended after it has no effect. -/
theorem sel_append {t : BitString} (u k : BitString) (h : 1 ≤ t.length) : sel (t ++ u) k = sel t k := by
  simp only [sel, bitAt_append_left t u 1 h]

/-- The choice is linear in the window. -/
theorem sel_xorBits {s t : BitString} (k : BitString) (hs : 1 ≤ s.length) (ht : 1 ≤ t.length) :
    sel (xorBits s t) k = xorBits (sel s k) (sel t k) := by
  have hx : bitAt (xorBits s t) 1 = Bool.xor (bitAt s 1) (bitAt t 1) := bitAt_xorBits s t 1 hs ht
  unfold sel
  rw [hx]
  cases bitAt s 1 with
  | true =>
    cases bitAt t 1 with
    | true => exact (xorBits_self k).symm
    | false => exact (xorBits_zeros k).symm
  | false =>
    cases bitAt t 1 with
    | true => exact (zeros_xorBits k).symm
    | false => simp [xorBits_self]

/-- Settles O19, from `bitAt_xorBits` and the two values of the conditional divisor. -/
theorem xorAndSelectByElement : Obligations.XorAndSelectByElement := by
  refine ⟨fun a b hlen => ⟨by simp [hlen], fun i _ hi => bitAt_xorBits a b i hi (hlen ▸ hi)⟩, fun t k _ => ?_⟩
  exact ⟨sel_of_leading_one k, sel_of_leading_zero k⟩

end Sys2Proof.Machine

/-! PROOFS. The divider in its two forms (40_gf2_divider.md R83 to R90): the window of the reference form always holds
the register of the serial form with the next dividend bit after it. What the serial form shows of the divider is then
read off it: the key's leading bit takes no part, and the divider is linear. -/

namespace Sys2Proof.Machine

/-! ### Single bits of the dividend -/

theorem take_succ_eq_append_bitAt {d : BitString} {j : Nat} (h : j < d.length) :
    d.take (j + 1) = d.take j ++ [bitAt d (j + 1)] := by
  rw [← List.take_concat_get' d j h, bitAt_succ, List.getD_eq_getElem _ _ h]

theorem sub_self_eq_bitAt {d : BitString} {j : Nat} (h : j < d.length) : sub d (j + 1) (j + 1) = [bitAt d (j + 1)] := by
  rw [sub, Nat.add_sub_cancel, Nat.add_sub_cancel_left, List.drop_eq_getElem_cons h, List.take_succ_cons,
    List.take_zero, bitAt_succ, List.getD_eq_getElem _ _ h]

theorem sub_one (d : BitString) (j : Nat) : sub d 1 j = d.take j := by simp [sub]

/-! ### The serial form -/

theorem serialStep_of_leading_zero {r : BitString} (kl : BitString) (b : Bit) (h : bitAt r 1 = false) :
    serialStep kl r b = r.tail ++ [b] := by
  simp only [serialStep, h, sub_two_length, Bool.false_eq_true, if_false]

/-- One serial step: shift the dividend bit in, then the conditional XOR by the bit shifted out. -/
theorem serialStep_eq_xorBits_sel {kl r : BitString} (b : Bit) (hr : r.length = kl.length) (hw : 1 ≤ kl.length) :
    serialStep kl r b = xorBits (r.tail ++ [b]) (sel r kl) := by
  have hlen : (r.tail ++ [b]).length = kl.length := by simp; omega
  cases h : bitAt r 1 with
  | true => rw [sel_of_leading_one kl h, serialStep, if_pos h, sub_two_length]
  | false => rw [sel_of_leading_zero kl h, serialStep_of_leading_zero kl b h, ← hlen, xorBits_zeros]

theorem serialStep_length {kl r : BitString} (b : Bit) (hr : r.length = kl.length) (hw : 1 ≤ kl.length) :
    (serialStep kl r b).length = kl.length := by
  rw [serialStep_eq_xorBits_sel b hr hw]
  simp; omega

/-- The serial form reads the key by its tail alone. -/
theorem mod2divSerial_eq_foldl (d k : BitString) :
    mod2divSerial d k = d.foldl (serialStep k.tail) (zeros k.tail.length) := by
  rw [mod2divSerial, sub_two_length, List.length_tail]

@[simp] theorem mod2divSerial_nil (k : BitString) : mod2divSerial [] k = zeros (k.length - 1) := rfl

theorem mod2divSerial_append_last (d k : BitString) (b : Bit) :
    mod2divSerial (d ++ [b]) k = serialStep k.tail (mod2divSerial d k) b := by
  simp only [mod2divSerial_eq_foldl, List.foldl_append, List.foldl_cons, List.foldl_nil]

theorem mod2divSerial_length {k : BitString} (hk : 2 ≤ k.length) (d : BitString) :
    (mod2divSerial d k).length = k.tail.length := by
  induction d using List.reverseRecOn with
  | nil => simp
  | append_singleton d b ih =>
    rw [mod2divSerial_append_last]
    exact serialStep_length b ih (by simp; omega)

/-- The register starts at zeros, so the first `W` bits are shifted in with no XOR. -/
theorem mod2divSerial_of_length_lt (d k : BitString) (h : d.length < k.length) :
    mod2divSerial d k = zeros (k.length - 1 - d.length) ++ d := by
  induction d using List.reverseRecOn with
  | nil => simp
  | append_singleton d b ih =>
    rw [List.length_append, List.length_singleton] at h
    obtain ⟨n, hn⟩ : ∃ n, k.length - 1 - d.length = n + 1 := ⟨k.length - 1 - d.length - 1, by omega⟩
    have hn' : k.length - 1 - (d ++ [b]).length = n := by simp; omega
    rw [mod2divSerial_append_last, ih (by omega), hn, hn',
      serialStep_of_leading_zero _ _ rfl, ← List.append_assoc]
    rfl

/-- A 0 shifted into a register of zeros changes nothing. -/
theorem mod2divSerial_cons_false {k : BitString} (hk : 2 ≤ k.length) (d : BitString) :
    mod2divSerial (false :: d) k = mod2divSerial d k := by
  obtain ⟨n, hn⟩ : ∃ n, k.tail.length = n + 1 := ⟨k.length - 2, by simp; omega⟩
  have hstep : serialStep k.tail (zeros (n + 1)) false = zeros (n + 1) := by
    rw [serialStep_of_leading_zero _ _ rfl]
    exact List.replicate_succ'.symm
  rw [mod2divSerial_eq_foldl, mod2divSerial_eq_foldl, List.foldl_cons, hn, hstep]

theorem mod2divSerial_zeros_append {k : BitString} (hk : 2 ≤ k.length) (n : Nat) (d : BitString) :
    mod2divSerial (zeros n ++ d) k = mod2divSerial d k := by
  induction n with
  | zero => rfl
  | succ n ih => exact (mod2divSerial_cons_false hk (zeros n ++ d)).trans ih

theorem serialStep_xorBits {kl r s : BitString} (a b : Bit) (hr : r.length = kl.length) (hs : s.length = kl.length)
    (hw : 1 ≤ kl.length) :
    serialStep kl (xorBits r s) (Bool.xor a b) = xorBits (serialStep kl r a) (serialStep kl s b) := by
  have hrs : r.tail.length = s.tail.length := by simp [hr, hs]
  calc serialStep kl (xorBits r s) (Bool.xor a b)
      = xorBits (xorBits (r.tail ++ [a]) (s.tail ++ [b])) (xorBits (sel r kl) (sel s kl)) := by
        rw [serialStep_eq_xorBits_sel _ (by simp [hr, hs]) hw, sel_xorBits kl (hr ▸ hw) (hs ▸ hw),
          xorBits_append _ _ hrs, tail_xorBits]
        rfl
    _ = xorBits (serialStep kl r a) (serialStep kl s b) := by
        rw [xorBits_xorBits_xorBits_comm, serialStep_eq_xorBits_sel a hr hw, serialStep_eq_xorBits_sel b hs hw]

theorem mod2divSerial_xorBits {k : BitString} (hk : 2 ≤ k.length) (d e : BitString) (h : d.length = e.length) :
    mod2divSerial (xorBits d e) k = xorBits (mod2divSerial d k) (mod2divSerial e k) := by
  induction d using List.reverseRecOn generalizing e with
  | nil =>
    obtain rfl : e = [] := List.length_eq_zero_iff.1 h.symm
    rw [mod2divSerial_nil, xorBits_self (zeros _), zeros_length]
    rfl
  | append_singleton d a ih =>
    obtain rfl | ⟨e, b, rfl⟩ := List.eq_nil_or_concat' e
    · simp at h
    · have hde : d.length = e.length := by simpa using h
      have hsnoc : xorBits (d ++ [a]) (e ++ [b]) = xorBits d e ++ [Bool.xor a b] := xorBits_append _ _ hde
      rw [hsnoc, mod2divSerial_append_last, mod2divSerial_append_last, mod2divSerial_append_last, ih e hde]
      exact serialStep_xorBits a b (mod2divSerial_length hk d) (mod2divSerial_length hk e) (by simp; omega)

/-! ### The window form against the serial form -/

/-- R84: the remainder of the window, with the next dividend bit appended. -/
theorem iterate_tmp (k : BitString) {v : DivLatches} (h : v.pick < v.divd.length) :
    (v.iterate k).tmp = v.remainder k ++ [bitAt v.divd (v.pick + 1)] :=
  congrArg (v.remainder k ++ ·) (sub_self_eq_bitAt h)

theorem iterations_succ_last (k : BitString) (c : Nat) (v : DivLatches) :
    DivLatches.iterations k (c + 1) v = (DivLatches.iterations k c v).iterate k := iterations_add k c 1 v

@[simp] theorem iterations_pick (k : BitString) (c : Nat) (v : DivLatches) :
    (DivLatches.iterations k c v).pick = v.pick + c := by
  induction c with
  | zero => rfl
  | succ c ih => rw [iterations_succ_last, iterate_pick, ih, Nat.add_assoc]

/-- The conditional XOR of a window, its leading bit dropped. -/
theorem remainder_eq_xorBits_tail {k : BitString} {v : DivLatches} (h : v.tmp.length = k.length) :
    v.remainder k = xorBits v.tmp.tail (sel v.tmp k.tail) := by
  have hlen : (v.xr k).length = k.length := by simp [DivLatches.xr, h]
  unfold DivLatches.remainder
  rw [← hlen, sub_two_length, DivLatches.xr, tail_xorBits, tail_sel]

/-- Steps 3 and 4 on a window that holds a register and one more bit are a step of the serial form. -/
theorem remainder_eq_serialStep {k r : BitString} {b : Bit} {v : DivLatches} (hk : 2 ≤ k.length)
    (hr : r.length = k.tail.length) (hv : v.tmp = r ++ [b]) : v.remainder k = serialStep k.tail r b := by
  have hw : 1 ≤ k.tail.length := by simp; omega
  have hne : r ≠ [] := List.ne_nil_of_length_pos (by omega)
  have hlen : v.tmp.length = k.length := by rw [hv]; simp at hr ⊢; omega
  rw [remainder_eq_xorBits_tail hlen, hv, List.tail_append_of_ne_nil hne, sel_append [b] k.tail (by omega),
    serialStep_eq_xorBits_sel b hr hw]

/-- The invariant of step 2: after `c` iterations the window is the serial register after `W + c` bits, then bit
`L + c`. -/
theorem iterations_load_tmp {d k : BitString} (hk : 2 ≤ k.length) (c : Nat) (h : k.length + c ≤ d.length) :
    (DivLatches.iterations k c (.load d k.length)).tmp =
      mod2divSerial (d.take (k.length - 1 + c)) k ++ [bitAt d (k.length + c)] := by
  induction c with
  | zero =>
    have hshort : mod2divSerial (d.take (k.length - 1)) k = d.take (k.length - 1) := by
      have hlen : (d.take (k.length - 1)).length = k.length - 1 := by simp; omega
      rw [mod2divSerial_of_length_lt _ k (by omega), hlen, Nat.sub_self]
      rfl
    have hsucc : k.length - 1 + 1 = k.length := by omega
    have htake := take_succ_eq_append_bitAt (d := d) (j := k.length - 1) (by omega)
    rw [hsucc] at htake
    rw [iterations_zero, load_tmp, sub_one, Nat.add_zero, Nat.add_zero, hshort, htake]
  | succ c ih =>
    have hsucc : k.length - 1 + (c + 1) = k.length - 1 + c + 1 := by omega
    have hbit : k.length - 1 + c + 1 = k.length + c := by omega
    rw [iterations_succ_last, iterate_tmp k (by simp; omega),
      remainder_eq_serialStep hk (mod2divSerial_length hk _) (ih (by omega)), ← mod2divSerial_append_last,
      hsucc, take_succ_eq_append_bitAt (j := k.length - 1 + c) (by omega), hbit]
    simp only [iterations_divd, iterations_pick, load_divd, load_pick, Nat.add_assoc]

/-- After `c` iterations the final XOR leaves the serial register after `L + c` bits. -/
theorem mod2divSerial_take {d k : BitString} (hk : 2 ≤ k.length) (c : Nat) (h : k.length + c ≤ d.length) :
    mod2divSerial (d.take (k.length + c)) k = (DivLatches.iterations k c (.load d k.length)).remainder k := by
  have hbit : k.length + c = k.length - 1 + c + 1 := by omega
  rw [remainder_eq_serialStep hk (mod2divSerial_length hk _) (iterations_load_tmp hk c h),
    ← mod2divSerial_append_last, hbit, take_succ_eq_append_bitAt (by omega)]

theorem mod2divSerial_eq_mod2div {d k : BitString} (hk : 2 ≤ k.length) (h : k.length ≤ d.length) :
    mod2divSerial d k = mod2div d k := by
  have htake := mod2divSerial_take (d := d) hk (d.length - k.length) (by omega)
  rw [List.take_of_length_le (by omega)] at htake
  exact htake

/-- Settles O21, by the invariant of the window's iterations. -/
theorem dividerEqualsSerialForm : Obligations.DividerEqualsSerialForm := fun d k hk =>
  ⟨mod2divSerial_eq_mod2div hk, mod2divSerial_take hk, mod2divSerial_of_length_lt d k⟩

/-! ### What the serial form shows of the divider -/

/-- Settles O20: the serial form of the divider does not read the key's leading bit. -/
theorem dividerNeverReadsKeyLeadingBit : Obligations.DividerNeverReadsKeyLeadingBit := by
  intro d t ht hd
  have hlen (x : Bit) : 2 ≤ (x :: t).length := Nat.succ_le_succ ht
  rw [← mod2divSerial_eq_mod2div (hlen false) hd, ← mod2divSerial_eq_mod2div (hlen true) hd]
  simp only [mod2divSerial_eq_foldl, List.tail_cons]

theorem mod2div_length {d k : BitString} (hk : 2 ≤ k.length) (h : k.length ≤ d.length) :
    (mod2div d k).length = k.length - 1 := by
  rw [← mod2divSerial_eq_mod2div hk h, mod2divSerial_length hk, List.length_tail]

theorem mod2div_xorBits {d e k : BitString} (hk : 2 ≤ k.length) (hde : d.length = e.length)
    (h : k.length ≤ d.length) : mod2div (xorBits d e) k = xorBits (mod2div d k) (mod2div e k) := by
  rw [← mod2divSerial_eq_mod2div hk (by simp; omega), ← mod2divSerial_eq_mod2div hk h,
    ← mod2divSerial_eq_mod2div hk (hde ▸ h), mod2divSerial_xorBits hk d e hde]

theorem mod2div_zeros {k : BitString} {n : Nat} (hk : 2 ≤ k.length) (h : k.length ≤ n) :
    mod2div (zeros n) k = zeros (k.length - 1) := by
  have hser := mod2divSerial_zeros_append hk n []
  rwa [List.append_nil, mod2divSerial_nil, mod2divSerial_eq_mod2div hk (by simpa using h)] at hser

theorem mod2div_cons_false {d k : BitString} (hk : 2 ≤ k.length) (h : k.length ≤ d.length) :
    mod2div (false :: d) k = mod2div d k := by
  rw [← mod2divSerial_eq_mod2div (d := false :: d) hk (Nat.le_succ_of_le h), ← mod2divSerial_eq_mod2div hk h,
    mod2divSerial_cons_false hk]

/-- A dividend with nothing above its last `W` bits is its own remainder. -/
theorem mod2div_zeros_append {t k : BitString} {n : Nat} (hk : 2 ≤ k.length) (ht : t.length = k.length - 1)
    (hn : 1 ≤ n) : mod2div (zeros n ++ t) k = t := by
  rw [← mod2divSerial_eq_mod2div hk (by simp; omega), mod2divSerial_zeros_append hk,
    mod2divSerial_of_length_lt t k (by omega), ht, Nat.sub_self]
  rfl

theorem mod2div_append {p t k : BitString} (hk : 2 ≤ k.length) (ht : t.length = k.length - 1) (hp : 1 ≤ p.length) :
    mod2div (p ++ t) k = xorBits (mod2div (p ++ zeros (k.length - 1)) k) t := by
  have hsplit : p ++ t = xorBits (p ++ zeros (k.length - 1)) (zeros p.length ++ t) := by
    rw [xorBits_append _ _ (zeros_length _).symm, xorBits_zeros, ← ht, zeros_xorBits]
  rw [hsplit, mod2div_xorBits hk (by simp [ht]) (by simp; omega), mod2div_zeros_append hk ht hp]

/-- Settles O23: each identity from the serial form; the last `W` bits split off because the dividend is the xor of its
upper part and its lower part. -/
theorem dividerIsLinear : Obligations.DividerIsLinear := fun _ hk =>
  ⟨fun _ _ => mod2div_xorBits hk, fun _ => mod2div_zeros hk, fun _ => mod2div_cons_false hk,
    fun _ _ => mod2div_append hk⟩

/-! ### A dividend of the key's own length -/

/-- R88 with `N = L`: no iteration, so the window is the dividend. -/
theorem mod2div_eq_remainder_load {d k : BitString} (h : d.length = k.length) :
    mod2div d k = (DivLatches.load d k.length).remainder k := by
  rw [mod2div, DivLatches.divide, h, Nat.sub_self, iterations_zero]

/-- Settles O24: the window is the dividend, and its one conditional XOR is the answer. -/
theorem dividerOneStepWhenLengthsEqual : Obligations.DividerOneStepWhenLengthsEqual := by
  intro d k _ hlen
  have hwin : (DivLatches.load d k.length).tmp = d := by
    rw [load_tmp, sub_one, List.take_of_length_le hlen.le]
  have htail : mod2div d k = xorBits d.tail (sel d k.tail) := by
    rw [mod2div_eq_remainder_load hlen, remainder_eq_xorBits_tail ((congrArg List.length hwin).trans hlen), hwin]
  refine ⟨?_, fun h1 => ?_, fun h0 => ?_⟩
  · rw [mod2div_eq_remainder_load hlen, DivLatches.remainder, DivLatches.xr, hwin]
  · rw [htail, sel_of_leading_one _ h1]
  · have hw : k.tail.length = d.tail.length := by simp [hlen]
    rw [htail, sel_of_leading_zero _ h0, hw, xorBits_zeros]

end Sys2Proof.Machine

/-! PROOFS. The divider over polynomials (40_gf2_divider.md R91): `poly` turns the BitString operations into those of
GF(2)[x], and each step of the serial form keeps the residue modulo the key's polynomial. -/

namespace Sys2Proof.Machine
open Polynomial

/-! ### `poly` of the BitString operations -/

@[simp] theorem poly_nil : poly [] = 0 := rfl

theorem poly_cons (b : Bit) (s : BitString) : poly (b :: s) = (if b then X ^ s.length else 0) + poly s := by
  unfold poly
  rw [List.length_cons, Finset.sum_range_succ', add_comm]
  simp [bitAt, Nat.add_sub_add_right]

theorem poly_append_last (s : BitString) (b : Bit) : poly (s ++ [b]) = X * poly s + if b then 1 else 0 := by
  induction s with
  | nil => simp [poly_cons]
  | cons c s ih =>
    rw [List.cons_append, poly_cons, poly_cons, ih, List.length_append, List.length_singleton, mul_add, add_assoc]
    cases c <;> simp [pow_succ']

@[simp] theorem poly_zeros (n : Nat) : poly (zeros n) = 0 := by
  induction n with
  | zero => rfl
  | succ n ih => exact (poly_cons false (zeros n)).trans (by simp [ih])

theorem poly_xorBits (a b : BitString) (h : a.length = b.length) : poly (xorBits a b) = poly a + poly b := by
  induction a generalizing b with
  | nil =>
    obtain rfl : b = [] := List.length_eq_zero_iff.1 h.symm
    simp [xorBits]
  | cons x a ih =>
    obtain _ | ⟨y, b⟩ := b
    · simp at h
    · have hab : a.length = b.length := by simpa using h
      have hlead : (if Bool.xor x y then X ^ a.length else 0 : (ZMod 2)[X]) =
          (if x then X ^ a.length else 0) + if y then X ^ a.length else 0 := by
        cases x <;> cases y <;> simp [CharTwo.add_self_eq_zero]
      rw [xorBits_cons_cons, poly_cons, poly_cons, poly_cons, ih b hab, xorBits_length, ← hab, min_self, hlead]
      exact add_add_add_comm _ _ _ _

theorem poly_sel (t k : BitString) : poly (sel t k) = if bitAt t 1 then poly k else 0 := by
  cases h : bitAt t 1 with
  | true => rw [sel_of_leading_one k h, if_pos rfl]
  | false => rw [sel_of_leading_zero k h, poly_zeros]; rfl

theorem degree_poly_lt (s : BitString) : (poly s).degree < s.length := by
  induction s with
  | nil => simp
  | cons b s ih =>
    have hsucc : (s.length : WithBot Nat) < (b :: s).length := by exact_mod_cast Nat.lt_succ_self _
    rw [poly_cons]
    refine (degree_add_le _ _).trans_lt (max_lt ?_ (ih.trans hsucc))
    cases b with
    | true => rw [if_pos rfl, degree_X_pow]; exact hsucc
    | false => simp

/-! ### The key's polynomial -/

theorem poly_monicKey (k : BitString) : poly (monicKey k) = X ^ k.tail.length + poly k.tail := poly_cons true k.tail

theorem poly_monicKey_monic (k : BitString) : (poly (monicKey k)).Monic :=
  poly_monicKey k ▸ monic_X_pow_add (degree_poly_lt k.tail)

theorem natDegree_poly_monicKey (k : BitString) : (poly (monicKey k)).natDegree = k.length - 1 := by
  rw [poly_monicKey, natDegree_add_eq_left_of_degree_lt (by rw [degree_X_pow]; exact degree_poly_lt _),
    natDegree_X_pow, List.length_tail]

theorem degree_poly_monicKey (k : BitString) : (poly (monicKey k)).degree = (k.length - 1 : Nat) := by
  rw [degree_eq_natDegree (poly_monicKey_monic k).ne_zero, natDegree_poly_monicKey]

/-! ### The residue -/

/-- A serial step is multiplication by x, the dividend bit added, and then at most one multiple of the key. -/
theorem poly_serialStep {k r : BitString} (b : Bit) (hk : 2 ≤ k.length) (hr : r.length = k.tail.length) :
    poly (serialStep k.tail r b) =
      (X * poly r + if b then 1 else 0) + if bitAt r 1 then poly (monicKey k) else 0 := by
  have hw : 1 ≤ k.tail.length := by simp; omega
  obtain _ | ⟨c, r⟩ := r
  · simp at hr; omega
  · have hshift : X * poly (c :: r) = (if c then X ^ k.tail.length else 0) + X * poly r := by
      rw [poly_cons, mul_add, ← hr]
      cases c <;> simp [pow_succ']
    rw [serialStep_eq_xorBits_sel b hr hw, List.tail_cons, poly_xorBits _ _ (by simpa using hr), poly_sel,
      poly_append_last, hshift, poly_monicKey]
    cases c with
    | false => simp [bitAt]
    | true =>
      have hcancel : (X : (ZMod 2)[X]) ^ k.tail.length + X ^ k.tail.length = 0 := CharTwo.add_self_eq_zero _
      simp only [bitAt_succ, List.getD_cons_zero, if_true]
      linear_combination -hcancel

theorem monicKey_dvd_sub_mod2divSerial {k : BitString} (hk : 2 ≤ k.length) (d : BitString) :
    poly (monicKey k) ∣ poly d - poly (mod2divSerial d k) := by
  induction d using List.reverseRecOn with
  | nil => simp
  | append_singleton d b ih =>
    have hstep : poly (d ++ [b]) - poly (mod2divSerial (d ++ [b]) k) =
        X * (poly d - poly (mod2divSerial d k)) -
          if bitAt (mod2divSerial d k) 1 then poly (monicKey k) else 0 := by
      rw [mod2divSerial_append_last, poly_serialStep b hk (mod2divSerial_length hk d), poly_append_last]
      ring
    rw [hstep]
    refine dvd_sub (ih.mul_left X) ?_
    split
    · exact dvd_rfl
    · exact dvd_zero _

/-- Below the degree of the key there is one polynomial in each residue class. -/
theorem eq_modByMonic_of_dvd_sub {k : BitString} {p q : (ZMod 2)[X]} (hq : q.degree < (k.length - 1 : Nat))
    (h : poly (monicKey k) ∣ p - q) : q = p %ₘ poly (monicKey k) := by
  have hmonic := poly_monicKey_monic k
  calc q = q %ₘ poly (monicKey k) := ((modByMonic_eq_self_iff hmonic).2 (degree_poly_monicKey k ▸ hq)).symm
    _ = p %ₘ poly (monicKey k) := (modByMonic_eq_of_dvd_sub hmonic h).symm

theorem poly_mod2div {d k : BitString} (hk : 2 ≤ k.length) (h : k.length ≤ d.length) :
    poly (mod2div d k) = poly d %ₘ poly (monicKey k) := by
  refine eq_modByMonic_of_dvd_sub (mod2div_length hk h ▸ degree_poly_lt (mod2div d k)) ?_
  rw [← mod2divSerial_eq_mod2div hk h]
  exact monicKey_dvd_sub_mod2divSerial hk d

/-- Settles O22: every serial step keeps the residue, and the answer's degree is below the key's. -/
theorem dividerIsPolynomialRemainder : Obligations.DividerIsPolynomialRemainder := fun _ k hk h =>
  ⟨mod2div_length hk h, natDegree_poly_monicKey k, poly_mod2div hk h, fun _ hdeg hdvd =>
    (eq_modByMonic_of_dvd_sub hdeg hdvd).trans (poly_mod2div hk h).symm⟩

end Sys2Proof.Machine

/-! PROOFS. What a core answers to the two CRC commands: validity under R151 against the commands' own rules, and the
response where the command is valid (41_crc_commands.md R100, R102). -/

namespace Sys2Proof.Machine

/-! ### Validity -/

theorem Capacity.admits_of_le {cap : Capacity} {m n : Nat} (h : m ≤ n) (hn : cap.admits n = true) :
    cap.admits m = true := by
  cases cap with
  | bounded c =>
    have hc : n ≤ c := by simpa [Capacity.admits] using hn
    simpa [Capacity.admits] using h.trans hc
  | unbounded => rfl

/-- R100's bounds on the two operands follow from the one on the result. -/
theorem validCrcEnc_iff (cap : Capacity) (data key : Nat) :
    validCrcEnc cap data key = true ↔ 1 ≤ data ∧ 2 ≤ key ∧ cap.admits (data + key - 1) = true := by
  simp only [validCrcEnc, Bool.and_eq_true, decide_eq_true_eq]
  constructor
  · rintro ⟨⟨⟨⟨hdata, -⟩, hkey⟩, -⟩, hsum⟩
    exact ⟨hdata, hkey, hsum⟩
  · rintro ⟨hdata, hkey, hsum⟩
    exact ⟨⟨⟨⟨hdata, Capacity.admits_of_le (by omega) hsum⟩, hkey⟩, Capacity.admits_of_le (by omega) hsum⟩, hsum⟩

/-- R102's bounds on the key, and the codeword's lower one, follow from the other two. -/
theorem validCrcVfy_iff (cap : Capacity) (codeword key : Nat) :
    validCrcVfy cap codeword key = true ↔ 2 ≤ key ∧ key ≤ codeword ∧ cap.admits codeword = true := by
  simp only [validCrcVfy, Bool.and_eq_true, decide_eq_true_eq]
  constructor
  · rintro ⟨⟨⟨⟨-, hcw⟩, hkey⟩, -⟩, hle⟩
    exact ⟨hkey, hle, hcw⟩
  · rintro ⟨hkey, hle, hcw⟩
    exact ⟨⟨⟨⟨by omega, hcw⟩, hkey⟩, Capacity.admits_of_le hle hcw⟩, hle⟩

/-- The causes of R151 that `CRC_ENC` can raise are the failures of R100's validity. -/
theorem invalid_crcEnc (cap : Capacity) (data key : Nat) :
    invalid cap 0b00#2 data key = !validCrcEnc cap data key := by
  rw [Bool.eq_iff_iff]
  simp [invalid, validCrcEnc, or_assoc]

/-- The causes of R151 that `CRC_VFY` can raise are the failures of R102's validity. -/
theorem invalid_crcVfy (cap : Capacity) (codeword key : Nat) :
    invalid cap 0b01#2 codeword key = !validCrcVfy cap codeword key := by
  rw [Bool.eq_iff_iff]
  simp [invalid, validCrcVfy, or_assoc]

/-! ### Responses -/

theorem replyTo_crcEnc_of_valid {s : State} {a b : Operand} (h : validCrcEnc s.cap a.len b.len = true) :
    s.replyTo (.crcEnc a b) = .crcEnc a.value (mod2div (padded a.value b.value) b.value) := by
  simp [State.replyTo, invalid_crcEnc, h]

theorem replyTo_crcVfy_of_valid {s : State} {a b : Operand} (h : validCrcVfy s.cap a.len b.len = true) :
    s.replyTo (.crcVfy a b) = .crcVfy (mod2div a.value b.value) := by
  simp [State.replyTo, invalid_crcVfy, h]

theorem responseOf_eq_replyTo (cap : Capacity) (i : Instr) :
    responseOf cap i = (State.resetWith cap).replyTo i := by
  obtain ⟨t, ht⟩ := exec_eq_answer_replyTo i (State.resetWith cap)
  simp [responseOf, ht]

/-- `CRC_VFY` of two BitStrings within R102's bounds. -/
theorem responseOf_crcVfy_ofBits {cap : Capacity} {c k : BitString} (hcap : cap.admits c.length = true)
    (hk : 2 ≤ k.length) (hkc : k.length ≤ c.length) :
    responseOf cap (.crcVfy (.ofBits c) (.ofBits k)) = .crcVfy (mod2div c k) := by
  have hvalid : validCrcVfy (State.resetWith cap).cap (Operand.ofBits c).len (Operand.ofBits k).len = true :=
    (validCrcVfy_iff _ _ _).2 ⟨hk, hkc, hcap⟩
  rw [responseOf_eq_replyTo, replyTo_crcVfy_of_valid hvalid, value_ofBits, value_ofBits]

/-- R102's verdict: 1 exactly when the remainder is `zeros(W)`. -/
theorem crcVfy_flag_iff {d k : BitString} (hk : 2 ≤ k.length) (h : k.length ≤ d.length) :
    (Response.crcVfy (mod2div d k)).flag = true ↔ mod2div d k = zeros (k.length - 1) := by
  have hiff := isZero_iff_eq_zeros (mod2div d k)
  rwa [mod2div_length hk h] at hiff

end Sys2Proof.Machine

/-! PROOFS. `CRC_ENC`: the shape of its result, and that the result verifies (41_crc_commands.md R101, R103). -/

namespace Sys2Proof.Machine

theorem sub_append_left (x y : BitString) : sub (x ++ y) 1 x.length = x := by
  rw [sub_one, List.take_left]

theorem sub_append_right (x y : BitString) : sub (x ++ y) (x.length + 1) (x ++ y).length = y := by
  simp [sub, List.take_of_length_le]

/-- The dividend of a valid `CRC_ENC` is at least as long as the key, so the divider's remainder has `W` bits. -/
theorem mod2div_padded_length {a b : Operand} (ha : 1 ≤ a.len) (hb : 2 ≤ b.len) :
    (mod2div (padded a.value b.value) b.value).length = b.len - 1 := by
  rw [mod2div_length (by simpa using hb) (by simp [padded]; omega), value_length]

/-- Settles O14: the result is the data with the remainder appended, and the remainder has `W` bits. -/
theorem crcEncResultShape : Obligations.CrcEncResultShape := by
  intro s a b r hvalid hr
  obtain ⟨ha, hb, -⟩ := (validCrcEnc_iff _ _ _).1 hvalid
  have hrem := mod2div_padded_length ha hb
  rw [answers_iff, replyTo_crcEnc_of_valid hvalid] at hr
  subst hr
  refine ⟨hrem, ?_, ?_, ?_⟩
  · simp only [Response.crcEnc, List.length_append, value_length, hrem]
    omega
  · have hdata := sub_append_left a.value (mod2div (padded a.value b.value) b.value)
    rwa [value_length] at hdata
  · have htail := sub_append_right a.value (mod2div (padded a.value b.value) b.value)
    rwa [value_length] at htail

/-- Appending the remainder in place of the zeros it was computed with cancels it. -/
theorem mod2div_append_remainder {p k : BitString} (hk : 2 ≤ k.length) (hp : 1 ≤ p.length) :
    mod2div (p ++ mod2div (padded p k) k) k = zeros (k.length - 1) := by
  have hrem : (mod2div (padded p k) k).length = k.length - 1 := mod2div_length hk (by simp [padded]; omega)
  calc mod2div (p ++ mod2div (padded p k) k) k
      = xorBits (mod2div (padded p k) k) (mod2div (padded p k) k) := mod2div_append hk hrem hp
    _ = zeros (k.length - 1) := by rw [xorBits_self, hrem]

/-- Settles O15: the result is no longer than the capacity admits, and its remainder cancels. -/
theorem crcRoundTripVerifies : Obligations.CrcRoundTripVerifies := by
  intro s t a b r hcap hvalid hr
  obtain ⟨ha, hb, hsum⟩ := (validCrcEnc_iff _ _ _).1 hvalid
  obtain ⟨-, hlen, -, -⟩ := crcEncResultShape s a b r hvalid hr
  have hvfy : validCrcVfy t.cap r.r0.length b.len = true := by
    rw [validCrcVfy_iff, hlen, hcap]
    exact ⟨hb, by omega, hsum⟩
  have hrem : mod2div r.r0 b.value = zeros (b.value.length - 1) := by
    rw [answers_iff, replyTo_crcEnc_of_valid hvalid] at hr
    subst hr
    exact mod2div_append_remainder (by simpa using hb) (by simpa using ha)
  have hflag : (Response.crcVfy (mod2div r.r0 b.value)).flag = true :=
    (crcVfy_flag_iff (by simpa using hb) (by rw [value_length, hlen]; omega)).2 hrem
  refine ⟨hvfy, ?_⟩
  rw [answers_iff, replyTo_crcVfy_of_valid hvfy, value_ofBits, ← hflag]
  rfl

end Sys2Proof.Machine

/-! PROOFS. `CRC_VFY` on a damaged codeword: which error patterns change the verdict, over polynomials
(41_crc_commands.md R104, R105). -/

namespace Sys2Proof.Machine
open Polynomial

/-! ### A remainder of zeros is divisibility -/

theorem poly_append (s t : BitString) : poly (s ++ t) = poly s * X ^ t.length + poly t := by
  induction s with
  | nil => simp
  | cons b s ih =>
    have hlead : (if b then X ^ (s ++ t).length else 0 : (ZMod 2)[X]) =
        (if b then X ^ s.length else 0) * X ^ t.length := by
      cases b <;> simp [pow_add]
    rw [List.cons_append, poly_cons, poly_cons, ih, hlead]
    ring

/-- Only zeros have the polynomial 0: a leading 1 is the leading coefficient of a monic polynomial. -/
theorem poly_eq_zero_iff (s : BitString) : poly s = 0 ↔ s = zeros s.length := by
  refine ⟨fun h => ?_, fun h => h ▸ poly_zeros s.length⟩
  induction s with
  | nil => rfl
  | cons b s ih =>
    cases b with
    | true => exact absurd h (poly_monicKey_monic (true :: s)).ne_zero
    | false =>
      rw [poly_cons, if_neg Bool.false_ne_true, zero_add] at h
      exact congrArg (false :: ·) (ih h)

theorem mod2div_eq_zeros_iff_dvd {d k : BitString} (hk : 2 ≤ k.length) (h : k.length ≤ d.length) :
    mod2div d k = zeros (k.length - 1) ↔ poly (monicKey k) ∣ poly d := by
  rw [← modByMonic_eq_zero_iff_dvd (poly_monicKey_monic k), ← poly_mod2div hk h, poly_eq_zero_iff,
    mod2div_length hk h]

/-! ### Error patterns -/

/-- Linearity: on a codeword that verifies, the remainder is the error pattern's own. -/
theorem mod2div_xorBits_of_verifies {c e k : BitString} (hk : 2 ≤ k.length) (h : k.length ≤ c.length)
    (he : e.length = c.length) (hc : mod2div c k = zeros (k.length - 1)) :
    mod2div (xorBits c e) k = mod2div e k := by
  have hrem : (mod2div e k).length = k.length - 1 := mod2div_length hk (by omega)
  rw [mod2div_xorBits hk he.symm h, hc, ← hrem, zeros_xorBits]

/-- The key's bits, leading bit set, with zeros on both sides: a power of x times the key's polynomial. -/
theorem monicKey_dvd_poly_aligned (k : BitString) (p q : Nat) :
    poly (monicKey k) ∣ poly (zeros p ++ monicKey k ++ zeros q) := by
  rw [poly_append, poly_append, poly_zeros, poly_zeros, zero_mul, zero_add, add_zero]
  exact dvd_mul_right _ _

/-- Settles O16: by linearity the verdict on a damaged codeword is the one on the error pattern, and a remainder of
zeros is divisibility by the key's polynomial. -/
theorem crcUndetectedPatterns : Obligations.CrcUndetectedPatterns := by
  intro cap c e k hcap hk hkc he verdict
  have hverdict (x : BitString) (hx : x.length = c.length) : verdict x = .crcVfy (mod2div x k) :=
    responseOf_crcVfy_ofBits (hx ▸ hcap) hk (hx ▸ hkc)
  have hflag (x : BitString) (hx : x.length = c.length) :
      (verdict x).flag = true ↔ mod2div x k = zeros (k.length - 1) := by
    rw [hverdict x hx]
    exact crcVfy_flag_iff hk (hx ▸ hkc)
  have hdvd (x : BitString) (hx : x.length = c.length) := mod2div_eq_zeros_iff_dvd (d := x) hk (hx ▸ hkc)
  refine ⟨hverdict e he, fun hc => ?_, fun p q hpq => ?_⟩
  · have hxor : (verdict (xorBits c e)).flag = true ↔ mod2div e k = zeros (k.length - 1) := by
      rw [hflag _ (by simp [he]), mod2div_xorBits_of_verifies hk hkc he ((hflag c rfl).1 hc)]
    exact ⟨hxor, hxor.trans (hdvd e he)⟩
  · have hlen : (zeros p ++ monicKey k ++ zeros q).length = c.length := by simp [monicKey]; omega
    exact (hflag _ hlen).2 ((hdvd _ hlen).2 (monicKey_dvd_poly_aligned k p q))

/-! ### Single flips -/

/-- The error pattern of one flip: a single 1, at position `p` of `n`. -/
def singleError (n p : Nat) : BitString := zeros (p - 1) ++ true :: zeros (n - p)

theorem singleError_length {n p : Nat} (h1 : 1 ≤ p) (h2 : p ≤ n) : (singleError n p).length = n := by
  simp [singleError]; omega

theorem poly_singleError (n p : Nat) : poly (singleError n p) = X ^ (n - p) := by
  rw [singleError, poly_append, poly_cons]
  simp

theorem flipAt_eq_xorBits_singleError {s : BitString} {p : Nat} (h1 : 1 ≤ p) (h2 : p ≤ s.length) :
    flipAt s p = xorBits s (singleError s.length p) := by
  obtain ⟨j, rfl⟩ : ∃ j, p = j + 1 := ⟨p - 1, by omega⟩
  obtain ⟨x, b, y, rfl, rfl⟩ : ∃ (x : BitString) (b : Bit) (y : BitString), x ++ b :: y = s ∧ x.length = j :=
    ⟨s.take j, s[j], s.drop (j + 1), by simp, by simp; omega⟩
  have hlow : (x ++ b :: y).length - (x.length + 1) = y.length := by simp; omega
  rw [singleError, hlow, Nat.add_sub_cancel, xorBits_append _ _ (zeros_length _).symm, xorBits_cons_cons,
    xorBits_zeros, xorBits_zeros, Bool.xor_true]
  simp [flipAt, setAt]

/-- The divisors of a power of x are the powers of x, so the key's polynomial is one only if `K[2..L]` is all zero. -/
theorem monicKey_dvd_X_pow_iff (k : BitString) (n : Nat) :
    poly (monicKey k) ∣ X ^ n ↔ isZero k.tail = true ∧ k.length - 1 ≤ n := by
  rw [isZero_iff_eq_zeros, ← poly_eq_zero_iff]
  constructor
  · intro h
    obtain ⟨i, hi, hassoc⟩ := (dvd_prime_pow prime_X n).1 h
    have heq : poly (monicKey k) = X ^ i := eq_of_monic_of_associated (poly_monicKey_monic k) (monic_X_pow i) hassoc
    have hdeg : k.length - 1 = i := by rw [← natDegree_poly_monicKey, heq, natDegree_X_pow]
    rw [poly_monicKey, List.length_tail, hdeg, add_eq_left] at heq
    exact ⟨heq, hdeg ▸ hi⟩
  · rintro ⟨htail, hn⟩
    rw [poly_monicKey, htail, add_zero, List.length_tail]
    exact pow_dvd_pow X hn

/-- A single flip of a codeword that verifies goes undetected exactly when the key is x^W and the flip is above the
last `W` positions. -/
theorem verifies_flipAt_iff {c k : BitString} {p : Nat} (hk : 2 ≤ k.length) (h : k.length ≤ c.length) (h1 : 1 ≤ p)
    (h2 : p ≤ c.length) (hc : mod2div c k = zeros (k.length - 1)) :
    mod2div (flipAt c p) k = zeros (k.length - 1) ↔ isZero k.tail = true ∧ k.length - 1 ≤ c.length - p := by
  have hlen := singleError_length h1 h2
  rw [flipAt_eq_xorBits_singleError h1 h2, mod2div_xorBits_of_verifies hk h hlen hc,
    mod2div_eq_zeros_iff_dvd hk (hlen.symm ▸ h), poly_singleError, monicKey_dvd_X_pow_iff]

/-- Settles O17: each of the three cases read off `verifies_flipAt_iff`. -/
theorem crcSingleFlipDetection : Obligations.CrcSingleFlipDetection := by
  intro cap c k p hcap hk hkc h1 h2 flag hc
  have hflag (x : BitString) (hx : x.length = c.length) : flag x = true ↔ mod2div x k = zeros (k.length - 1) := by
    rw [← crcVfy_flag_iff hk (hx ▸ hkc), ← responseOf_crcVfy_ofBits (hx ▸ hcap) hk (hx ▸ hkc)]
  have hflip : flag (flipAt c p) = false ↔ ¬(isZero k.tail = true ∧ k.length - 1 ≤ c.length - p) := by
    rw [← Bool.not_eq_true, hflag _ (flipAt_length c p), verifies_flipAt_iff hk hkc h1 h2 ((hflag c rfl).1 hc)]
  rw [hflip]
  refine ⟨fun hone => ?_, fun hzero => ?_, fun hlast => ?_⟩
  · simp [hone]
  · simp only [hzero, true_and]
    omega
  · omega

end Sys2Proof.Machine

/-! PROOFS. The key's leading bit and the all-zero key (41_crc_commands.md R106). -/

namespace Sys2Proof.Machine
open Polynomial

/-! ### The leading bit -/

theorem mod2div_congr_key_tail {d k k' : BitString} (hk : 2 ≤ k.length) (h : k.length ≤ d.length)
    (hlen : k'.length = k.length) (htail : k'.tail = k.tail) : mod2div d k' = mod2div d k := by
  rw [← mod2divSerial_eq_mod2div (hlen ▸ hk) (hlen ▸ h), ← mod2divSerial_eq_mod2div hk h, mod2divSerial_eq_foldl,
    mod2divSerial_eq_foldl, htail]

theorem replyTo_crcEnc_congr_key (s : State) (a : Operand) {b b' : Operand} (hlen : b'.len = b.len)
    (htail : b'.value.tail = b.value.tail) : s.replyTo (.crcEnc a b') = s.replyTo (.crcEnc a b) := by
  cases hvalid : validCrcEnc s.cap a.len b.len with
  | false => simp [State.replyTo, invalid_crcEnc, hlen, hvalid]
  | true =>
    obtain ⟨ha, hb, -⟩ := (validCrcEnc_iff _ _ _).1 hvalid
    have hpad : padded a.value b'.value = padded a.value b.value := by simp [padded, hlen]
    rw [replyTo_crcEnc_of_valid hvalid, replyTo_crcEnc_of_valid (hlen.symm ▸ hvalid), hpad,
      mod2div_congr_key_tail (by simpa using hb) (by simp [padded]; omega) (by simp [hlen]) htail]

theorem replyTo_crcVfy_congr_key (s : State) (a : Operand) {b b' : Operand} (hlen : b'.len = b.len)
    (htail : b'.value.tail = b.value.tail) : s.replyTo (.crcVfy a b') = s.replyTo (.crcVfy a b) := by
  cases hvalid : validCrcVfy s.cap a.len b.len with
  | false => simp [State.replyTo, invalid_crcVfy, hlen, hvalid]
  | true =>
    obtain ⟨hb, hle, -⟩ := (validCrcVfy_iff _ _ _).1 hvalid
    rw [replyTo_crcVfy_of_valid hvalid, replyTo_crcVfy_of_valid (hlen.symm ▸ hvalid),
      mod2div_congr_key_tail (by simpa using hb) (by simpa using hle) (by simp [hlen]) htail]

theorem bitAt_tail (s : BitString) (i : Nat) (h : 1 ≤ i) : bitAt s.tail i = bitAt s (i + 1) := by
  obtain ⟨j, rfl⟩ : ∃ j, i = j + 1 := ⟨i - 1, by omega⟩
  cases s <;> simp

/-- An operand with the wire of its first element complemented (R41: wire `len - 1`). -/
def complementLead (b : Operand) : Operand := { b with bits := b.bits ^^^ 2 ^ (b.len - 1) }

@[simp] theorem complementLead_len (b : Operand) : (complementLead b).len = b.len := rfl

/-- No element after the first is on the complemented wire. -/
theorem tail_value_complementLead (b : Operand) : (complementLead b).value.tail = b.value.tail := by
  refine ext_bitAt (by simp) fun i h1 h2 => ?_
  have hi : i + 1 ≤ b.len := by simp at h2; omega
  have hwire : b.len - 1 ≠ b.len - (i + 1) := by omega
  rw [bitAt_tail _ i h1, bitAt_tail _ i h1, bitAt_value (complementLead b) _ (by omega) hi,
    bitAt_value b _ (by omega) hi]
  simp [complementLead, hwire]

/-! ### The all-zero key -/

/-- The all-zero key stands for x^W, which divides whatever ends in `W` zeros. -/
theorem mod2div_padded_zeros {p : BitString} {l : Nat} (hl : 2 ≤ l) (hp : 1 ≤ p.length) :
    mod2div (p ++ zeros (l - 1)) (zeros l) = zeros (l - 1) := by
  have hdvd : poly (monicKey (zeros l)) ∣ poly (p ++ zeros (l - 1)) := by
    rw [poly_monicKey, poly_append, tail_zeros, poly_zeros, add_zero, add_zero]
    exact dvd_mul_left _ _
  have hzero := (mod2div_eq_zeros_iff_dvd (k := zeros l) (by simpa using hl) (by simp; omega)).2 hdvd
  rwa [zeros_length] at hzero

theorem mod2div_zero_key {p t : BitString} {l : Nat} (hl : 2 ≤ l) (hp : 1 ≤ p.length) (ht : t.length = l - 1) :
    mod2div (p ++ t) (zeros l) = t := by
  rw [mod2div_append (by simpa using hl) (by simpa using ht) hp, zeros_length, mod2div_padded_zeros hl hp, ← ht,
    zeros_xorBits]

/-- Settles O18: the two commands read the key by its length and its tail, which the complement keeps; under the
all-zero key the upper part of the dividend leaves nothing. -/
theorem crcLeadingKeyBitIgnored : Obligations.CrcLeadingKeyBitIgnored := by
  refine ⟨fun s a b r _ => ?_, fun d l hl hd => ?_⟩
  · simp only [answers_iff]
    have htail := tail_value_complementLead b
    exact ⟨(replyTo_crcEnc_congr_key s a (complementLead_len b) htail).trans,
      (replyTo_crcVfy_congr_key s a (complementLead_len b) htail).trans⟩
  · obtain ⟨p, t, rfl, ht⟩ : ∃ p t : BitString, p ++ t = d ∧ t.length = l - 1 :=
      ⟨d.take (d.length - (l - 1)), d.drop (d.length - (l - 1)), List.take_append_drop _ _, by simp; omega⟩
    have hup : (p ++ t).length - (l - 1) = p.length := by simp [ht]
    have hp : 1 ≤ p.length := by omega
    rw [hup, sub_append_right, mod2div_zero_key hl hp ht]

end Sys2Proof.Machine

/-! PROOFS. The two parity counts, each the least value that passes its search's test (42_hamming_commands.md R120,
R121). -/

namespace Sys2Proof.Machine

/-! ### The searches -/

/-- Where the test stays failed once it fails, the values the search's result does not exceed are those that fail it. -/
theorem searchUp_le_iff {short : Nat → Bool} {fuel lo r : Nat} (hstop : ∃ x, lo ≤ x ∧ x ≤ lo + fuel ∧ short x = false)
    (hstay : ∀ x, short x = false → short (x + 1) = false) (hr : lo ≤ r) :
    searchUp short fuel lo ≤ r ↔ short r = false := by
  obtain ⟨hend, -, hbelow⟩ := searchUp_spec short fuel lo hstop
  refine ⟨fun h => Nat.le_induction hend (fun x _ => hstay x) r h, fun h => ?_⟩
  by_contra hlt
  exact Bool.false_ne_true (h.symm.trans (hbelow r hr (not_le.1 hlt)))

theorem encShort_eq_false_iff (n r : Nat) : encShort n r = false ↔ n + r + 1 ≤ 2 ^ r := by simp [encShort]

theorem decShort_eq_false_iff (m r : Nat) : decShort m r = false ↔ m < 2 ^ r := by simp [decShort]

theorem rEnc_le_iff {n r : Nat} (hr : 1 ≤ r) : rEnc n ≤ r ↔ n + r + 1 ≤ 2 ^ r := by
  rw [← encShort_eq_false_iff]
  refine searchUp_le_iff ⟨n + 1, by omega, by omega, ?_⟩ (fun x hx => ?_) hr
  · rw [encShort_eq_false_iff]
    have hpow : n < 2 ^ n := Nat.lt_two_pow_self
    omega
  · rw [encShort_eq_false_iff] at hx ⊢
    omega

theorem rDec_le_iff {m r : Nat} (hr : 1 ≤ r) : rDec m ≤ r ↔ m < 2 ^ r := by
  rw [← decShort_eq_false_iff]
  refine searchUp_le_iff ⟨m + 1, by omega, by omega, ?_⟩ (fun x hx => ?_) hr
  · rw [decShort_eq_false_iff]
    exact (Nat.lt_succ_self m).trans Nat.lt_two_pow_self
  · rw [decShort_eq_false_iff] at hx ⊢
    omega

/-! ### The encoder's count -/

theorem two_le_rEnc {n : Nat} (hn : 1 ≤ n) : 2 ≤ rEnc n := by
  have hone := rEnc_le_iff (n := n) (r := 1) le_rfl
  omega

theorem rEnc_fits {n : Nat} (hn : 1 ≤ n) : n + rEnc n + 1 ≤ 2 ^ rEnc n :=
  (rEnc_le_iff (one_le_two.trans (two_le_rEnc hn))).1 le_rfl

theorem rEnc_eq_iff {n r : Nat} (hr : 2 ≤ r) : rEnc n = r ↔ 2 ^ (r - 1) + 1 ≤ n + r ∧ n + r + 1 ≤ 2 ^ r := by
  have hat := rEnc_le_iff (n := n) (r := r) (by omega)
  have hbelow := rEnc_le_iff (n := n) (r := r - 1) (by omega)
  omega

/-- Settles O28, from the values `r_enc(n)` does not exceed. -/
theorem encoderParityCountIsMinimal : Obligations.EncoderParityCountIsMinimal := by
  refine fun n hn => ⟨rEnc_fits hn, fun r hr hlt => ?_, two_le_rEnc hn, fun r => rEnc_eq_iff⟩
  have hnot : ¬ n + r + 1 ≤ 2 ^ r := (rEnc_le_iff hr).not.1 (not_le.2 hlt)
  omega

/-! ### The decoder's count -/

theorem one_le_rDec (m : Nat) : 1 ≤ rDec m := by
  obtain ⟨-, hlo, -⟩ := searchUp_spec (decShort m) (m + 1) 1
    ⟨m + 1, by omega, by omega, (decShort_eq_false_iff m _).2 ((Nat.lt_succ_self m).trans Nat.lt_two_pow_self)⟩
  exact hlo

theorem lt_two_pow_rDec (m : Nat) : m < 2 ^ rDec m := (rDec_le_iff (one_le_rDec m)).1 le_rfl

theorem rDec_eq_iff {m r : Nat} (hm : 1 ≤ m) (hr : 1 ≤ r) : rDec m = r ↔ 2 ^ (r - 1) ≤ m ∧ m < 2 ^ r := by
  have hat := rDec_le_iff (m := m) hr
  obtain rfl | hlt := hr.eq_or_lt
  · have hone := one_le_rDec m
    omega
  · have hbelow := rDec_le_iff (m := m) (r := r - 1) (by omega)
    omega

theorem two_pow_rDec_sub_one_le {m : Nat} (hm : 1 ≤ m) : 2 ^ (rDec m - 1) ≤ m :=
  ((rDec_eq_iff hm (one_le_rDec m)).1 rfl).1

theorem two_pow_le_of_lt_rDec {m r : Nat} (hm : 1 ≤ m) (hr : r < rDec m) : 2 ^ r ≤ m :=
  (Nat.pow_le_pow_right two_pos (Nat.le_sub_one_of_lt hr)).trans (two_pow_rDec_sub_one_le hm)

/-- Settles O29: `m` stands between two successive powers of two. -/
theorem decoderParityCountIsNumeralWidth : Obligations.DecoderParityCountIsNumeralWidth := by
  refine fun m hm => ⟨lt_two_pow_rDec m, fun r hr => Nat.lt_succ_of_le (two_pow_le_of_lt_rDec hm hr), fun r hr => ?_⟩
  rw [rDec_eq_iff hm hr, Nat.lt_iff_le_pred (Nat.two_pow_pos r)]

end Sys2Proof.Machine

/-! PROOFS. The layout of a codeword: parity positions, data positions and coverage sets (42_hamming_commands.md R122 to
R125). -/

namespace Sys2Proof.Machine

/-! ### Walks over the positions -/

theorem positions_pairwise (m : Nat) : (positions m).Pairwise (· < ·) := List.pairwise_lt_range' 1

theorem dataPositions_pairwise (m : Nat) : (dataPositions m).Pairwise (· < ·) := (positions_pairwise m).filter _

theorem isPow2_eq_false_iff (j : Nat) : isPow2 j = false ↔ ¬ ∃ i, j = 2 ^ i := by
  rw [← isPow2_iff, Bool.not_eq_true]

@[simp] theorem isPow2_two_pow (i : Nat) : isPow2 (2 ^ i) = true := (isPow2_iff _).2 ⟨i, rfl⟩

theorem mem_dataPositions {m j : Nat} : j ∈ dataPositions m ↔ 1 ≤ j ∧ j ≤ m ∧ isPow2 j = false := by
  simp [dataPositions, mem_positions, and_assoc]

theorem mem_cover {i m j : Nat} : j ∈ cover (2 ^ i) m ↔ 1 ≤ j ∧ j ≤ m ∧ j.testBit i = true := by
  simp [cover, mem_positions, covers_two_pow, and_assoc]

/-- Settles O33: coverage is a bit test, and a power of two has one bit set. -/
theorem coverageByBits : Obligations.CoverageByBits := by
  refine fun i m j => ⟨mem_cover, fun hm => ?_, fun i' hmem => ?_⟩
  · exact mem_cover.2 ⟨Nat.one_le_two_pow, hm, Nat.testBit_two_pow_self⟩
  · obtain ⟨-, -, hbit⟩ := mem_cover.1 hmem
    exact of_decide_eq_true (Nat.testBit_two_pow ▸ hbit)

/-! ### The layout on encode -/

section
variable {n : Nat}

/-- R123 (a): the last parity position stands inside the codeword, and before its end. -/
theorem two_pow_rEnc_sub_one_lt (hn : 1 ≤ n) : 2 ^ (rEnc n - 1) < n + rEnc n :=
  ((rEnc_eq_iff (two_le_rEnc hn)).1 rfl).1

theorem two_pow_lt_of_lt_rEnc {i : Nat} (hn : 1 ≤ n) (hi : i < rEnc n) : 2 ^ i < n + rEnc n :=
  (Nat.pow_le_pow_right two_pos (Nat.le_sub_one_of_lt hi)).trans_lt (two_pow_rEnc_sub_one_lt hn)

theorem lt_rEnc_of_two_pow_le {i : Nat} (hn : 1 ≤ n) (hi : 2 ^ i ≤ n + rEnc n) : i < rEnc n :=
  (Nat.pow_lt_pow_iff_right one_lt_two).1 (hi.trans_lt (rEnc_fits hn))

/-- R123 (c): two increasing walks over the same positions. -/
theorem parityPositions_eq (hn : 1 ≤ n) :
    (positions (n + rEnc n)).filter isPow2 = (List.range (rEnc n)).map (2 ^ ·) := by
  have hright : ((List.range (rEnc n)).map (2 ^ ·)).Pairwise (· < ·) :=
    List.pairwise_lt_range.map _ fun _ _ h => Nat.pow_lt_pow_right one_lt_two h
  refine ((positions_pairwise _).filter _).eq_of_mem_iff hright fun j => ?_
  simp only [List.mem_filter, mem_positions, isPow2_iff, List.mem_map, List.mem_range]
  constructor
  · rintro ⟨⟨-, hle⟩, i, rfl⟩
    exact ⟨i, lt_rEnc_of_two_pow_le hn hle, rfl⟩
  · rintro ⟨i, hi, rfl⟩
    exact ⟨⟨Nat.one_le_two_pow, (two_pow_lt_of_lt_rEnc hn hi).le⟩, i, rfl⟩

theorem dataPositions_length (hn : 1 ≤ n) : (dataPositions (n + rEnc n)).length = n := by
  have hsplit := List.length_eq_length_filter_add (l := positions (n + rEnc n)) isPow2
  rw [parityPositions_eq hn, List.length_map, List.length_range, positions_length] at hsplit
  exact Nat.add_left_cancel (hsplit.symm.trans (Nat.add_comm n _))

theorem isPow2_encoded_length (hn : 1 ≤ n) : isPow2 (n + rEnc n) = false := by
  rw [isPow2_eq_false_iff]
  rintro ⟨i, hi⟩
  exact absurd (two_pow_lt_of_lt_rEnc hn (lt_rEnc_of_two_pow_le hn hi.ge)) (by omega)

theorem rDec_encoded_length (hn : 1 ≤ n) : rDec (n + rEnc n) = rEnc n := by
  have hr := two_le_rEnc hn
  rw [rDec_eq_iff (by omega) (by omega)]
  exact ⟨(two_pow_rEnc_sub_one_lt hn).le, rEnc_fits hn⟩

theorem three_le_encoded_length (hn : 1 ≤ n) : 3 ≤ n + rEnc n := Nat.add_le_add hn (two_le_rEnc hn)

end

/-- Settles O31, one lemma per fact. -/
theorem encodeLayoutFacts : Obligations.EncodeLayoutFacts := fun _ hn =>
  ⟨two_pow_rEnc_sub_one_lt hn, rEnc_fits hn, ⟨parityPositions_eq hn, dataPositions_length hn⟩,
    ⟨isPow2_encoded_length hn, three_le_encoded_length hn⟩, rDec_encoded_length hn⟩

/-! ### The lengths the encoder reaches -/

/-- A length strictly between two successive powers of two is reached by the data bits that `r_dec` leaves. -/
theorem exists_encoded_length {m : Nat} (hm : 3 ≤ m) (hpow : isPow2 m = false) : ∃ n, 1 ≤ n ∧ m = n + rEnc n := by
  have hle : 2 ^ (rDec m - 1) ≤ m := two_pow_rDec_sub_one_le (by omega)
  have hne : 2 ^ (rDec m - 1) ≠ m := by
    intro h
    rw [← h, isPow2_two_pow] at hpow
    cases hpow
  have htwo : 2 ≤ rDec m := by
    have hone := rDec_le_iff (m := m) (r := 1) le_rfl
    omega
  have hself : rDec m - 1 < 2 ^ (rDec m - 1) := Nat.lt_two_pow_self
  have hlt := lt_two_pow_rDec m
  have hcount : rEnc (m - rDec m) = rDec m := (rEnc_eq_iff htwo).2 (by omega)
  exact ⟨m - rDec m, by omega, by omega⟩

/-- The causes of R151 that `HAM_DEC` can raise are the failures of R132's validity. -/
theorem invalid_hamDec (cap : Capacity) (m y : Nat) : invalid cap 0b11#2 m y = !validHamDec cap m := by
  rw [Bool.eq_iff_iff]
  simp [invalid, validHamDec]

/-- Settles O32: the lengths reached are those of the layout, and R132's validity does not ask for them. -/
theorem encoderReachableLengths : Obligations.EncoderReachableLengths := by
  refine ⟨fun m => ⟨?_, fun ⟨hm, hpow⟩ => exists_encoded_length hm ((isPow2_eq_false_iff m).2 hpow)⟩,
    fun n hn => ?_, fun cap i y hcap => ?_⟩
  · rintro ⟨n, hn, rfl⟩
    exact ⟨three_le_encoded_length hn, (isPow2_eq_false_iff _).1 (isPow2_encoded_length hn)⟩
  · rw [rDec_encoded_length hn, Nat.add_sub_cancel]
  · rw [invalid_hamDec]
    simp [validHamDec, hcap, Nat.one_le_two_pow]

end Sys2Proof.Machine

/-! PROOFS. The syndrome: its bits are the checks, so it is the XOR of the positions that hold a 1, and linear
(42_hamming_commands.md R130, R139). -/

namespace Sys2Proof.Machine

/-! ### The XOR of chosen bits -/

@[simp] theorem xorAt_nil (cw : BitString) : xorAt cw [] = false := rfl

theorem xorAt_append_last (cw : BitString) (ps : List Nat) (j : Nat) :
    xorAt cw (ps ++ [j]) = Bool.xor (xorAt cw ps) (bitAt cw j) := by
  simp [xorAt]

theorem xorAt_singleton (cw : BitString) (j : Nat) : xorAt cw [j] = bitAt cw j := Bool.false_xor _

/-- A position added to a walk counts where it is chosen. -/
theorem xorAt_filter_append_last (cw : BitString) (f : Nat → Bool) (ps : List Nat) (j : Nat) :
    xorAt cw ((ps ++ [j]).filter f) = Bool.xor (xorAt cw (ps.filter f)) (f j && bitAt cw j) := by
  rw [List.filter_append]
  cases h : f j <;> simp [h, xorAt_append_last]

theorem xorAt_congr {c d : BitString} {ps : List Nat} (h : ∀ j ∈ ps, bitAt c j = bitAt d j) :
    xorAt c ps = xorAt d ps :=
  List.foldl_ext _ _ _ fun acc j hj => congrArg (Bool.xor acc) (h j hj)

@[simp] theorem bitAt_zeros (m j : Nat) : bitAt (zeros m) j = false := by
  cases j with
  | zero => rfl
  | succ k => exact List.getD_eq_getElem?_getD.trans (List.getElem?_getD_replicate_default_eq false m k)

@[simp] theorem xorAt_zeros (m : Nat) (ps : List Nat) : xorAt (zeros m) ps = false := by
  induction ps using List.reverseRecOn with
  | nil => rfl
  | append_singleton ps j ih => rw [xorAt_append_last, ih, bitAt_zeros]; rfl

theorem bitAt_xorBits_of_length_eq {c d : BitString} (h : c.length = d.length) (j : Nat) :
    bitAt (xorBits c d) j = Bool.xor (bitAt c j) (bitAt d j) := by
  by_cases hj : j ≤ c.length
  · exact bitAt_xorBits c d j hj (h ▸ hj)
  · rw [bitAt_of_length_lt c j (by omega), bitAt_of_length_lt d j (by omega), bitAt_of_length_lt _ j (by simp; omega)]
    rfl

theorem xorAt_xorBits {c d : BitString} (h : c.length = d.length) (ps : List Nat) :
    xorAt (xorBits c d) ps = Bool.xor (xorAt c ps) (xorAt d ps) := by
  induction ps using List.reverseRecOn with
  | nil => rfl
  | append_singleton ps j ih =>
    rw [xorAt_append_last, xorAt_append_last, xorAt_append_last, ih, bitAt_xorBits_of_length_eq h, Bool.xor_assoc,
      Bool.xor_assoc, Bool.xor_left_comm (xorAt d ps)]

/-! ### The checks -/

/-- A walk of a check writes `J` and `ACC` only. -/
theorem foldl_checkVisit_keeps (i : Nat) (ps : List Nat) (h : HamLatches) :
    (ps.foldl (HamLatches.checkVisit i) h).cw = h.cw ∧ (ps.foldl (HamLatches.checkVisit i) h).errAcc = h.errAcc := by
  induction ps generalizing h with
  | nil => exact ⟨rfl, rfl⟩
  | cons j ps ih => exact ih (h.checkVisit i j)

theorem foldl_checkVisit_acc (i : Nat) (ps : List Nat) (h : HamLatches) :
    (ps.foldl (HamLatches.checkVisit i) h).acc = Bool.xor h.acc (xorAt h.cw (ps.filter (covers (2 ^ i)))) := by
  induction ps using List.reverseRecOn with
  | nil => simp
  | append_singleton ps j ih =>
    rw [List.foldl_append, List.foldl_cons, List.foldl_nil, checkVisit_acc, ih, (foldl_checkVisit_keeps i ps h).1,
      xorAt_filter_append_last, covers_two_pow, Bool.xor_assoc]

theorem openGroup_acc (i : Nat) (h : HamLatches) : (h.openGroup i).acc = false := rfl

theorem closeCheck_errAcc (i : Nat) (h : HamLatches) :
    (h.closeCheck i).errAcc = if h.acc then h.errAcc + 2 ^ i else h.errAcc := rfl

@[simp] theorem checkGroup_cw (m : Nat) (h : HamLatches) (i : Nat) : (h.checkGroup m i).cw = h.cw :=
  (foldl_checkVisit_keeps i (positions m) (h.openGroup i)).1

/-- A failed check adds its position to `ERRACC`. -/
theorem checkGroup_errAcc (m : Nat) (h : HamLatches) (i : Nat) :
    (h.checkGroup m i).errAcc = if xorAt h.cw (cover (2 ^ i) m) then h.errAcc + 2 ^ i else h.errAcc := by
  rw [HamLatches.checkGroup, closeCheck_errAcc, foldl_checkVisit_acc, (foldl_checkVisit_keeps i _ _).2, openGroup_acc,
    Bool.false_xor]
  rfl

theorem checks_succ (r m : Nat) (h : HamLatches) : h.checks (r + 1) m = (h.checks r m).checkGroup m r := by
  simp [HamLatches.checks, List.range_succ]

@[simp] theorem checks_cw (r m : Nat) (h : HamLatches) : (h.checks r m).cw = h.cw := by
  induction r with
  | zero => rfl
  | succ r ih => rw [checks_succ, checkGroup_cw, ih]

/-- Adding a power of two above a number sets that bit and keeps the others. -/
theorem testBit_add_two_pow {x r : Nat} (hx : x < 2 ^ r) (k : Nat) :
    (x + 2 ^ r).testBit k = (x.testBit k || decide (k = r)) := by
  have hor : x + 2 ^ r = 2 ^ r ||| x := by
    have h := Nat.two_pow_add_eq_or_of_lt hx 1
    rwa [mul_one, add_comm] at h
  rw [hor, Nat.testBit_or, Nat.testBit_two_pow, Bool.or_comm, decide_eq_decide.2 eq_comm]

/-- The invariant of the checks: bit `k` of `ERRACC` is the outcome of check `k`. -/
theorem testBit_checks_errAcc (r m : Nat) (h : HamLatches) (k : Nat) :
    (h.checks r m).errAcc.testBit k = (decide (k < r) && xorAt h.cw (cover (2 ^ k) m)) := by
  induction r generalizing k with
  | zero => simp [HamLatches.checks, HamLatches.openChecks]
  | succ r ih =>
    have hlt : (h.checks r m).errAcc < 2 ^ r :=
      Nat.lt_pow_two_of_testBit _ fun i hi => by rw [ih, decide_eq_false hi.not_gt, Bool.false_and]
    rw [checks_succ, checkGroup_errAcc, checks_cw, apply_ite (Nat.testBit · k), testBit_add_two_pow hlt, ih]
    by_cases hk : k = r
    · subst hk
      cases xorAt h.cw (cover (2 ^ k) m) <;> simp
    · have hiff : k < r + 1 ↔ k < r := by omega
      simp [hk, hiff]

/-! ### The syndrome -/

theorem cover_eq_nil {k m : Nat} (h : m < 2 ^ k) : cover (2 ^ k) m = [] := by
  refine List.eq_nil_iff_forall_not_mem.2 fun j hj => ?_
  obtain ⟨-, hle, hbit⟩ := mem_cover.1 hj
  exact absurd (Nat.ge_two_pow_of_testBit hbit) (by omega)

/-- R130 for any latches the decode starts from: past the last check no position is covered. -/
theorem testBit_decode_errAcc (h : HamLatches) (cw : BitString) (k : Nat) :
    (h.decode cw).errAcc.testBit k = xorAt cw (cover (2 ^ k) cw.length) := by
  refine (testBit_checks_errAcc _ _ _ k).trans ?_
  by_cases hk : k < rDec cw.length
  · simp [hk]
  · have hm : cw.length < 2 ^ k :=
      (lt_two_pow_rDec cw.length).trans_le (Nat.pow_le_pow_right two_pos (not_lt.1 hk))
    simp [cover_eq_nil hm]

@[simp] theorem decode_cw (h : HamLatches) (cw : BitString) : (h.decode cw).cw = cw := checks_cw _ _ _

theorem testBit_syndrome (cw : BitString) (k : Nat) :
    (syndrome cw).testBit k = xorAt cw (cover (2 ^ k) cw.length) := testBit_decode_errAcc .reset cw k

/-- The latches a decode starts from take no part in its syndrome. -/
@[simp] theorem decode_errAcc (h : HamLatches) (cw : BitString) : (h.decode cw).errAcc = syndrome cw :=
  Nat.eq_of_testBit_eq fun k => (testBit_decode_errAcc h cw k).trans (testBit_syndrome cw k).symm

/-- Bit `k` of the XOR of chosen positions counts those of them that have bit `k` set. -/
theorem testBit_foldl_xor (cw : BitString) (ps : List Nat) (k : Nat) :
    ((ps.filter (bitAt cw)).foldl (· ^^^ ·) 0).testBit k = xorAt cw (ps.filter (covers (2 ^ k))) := by
  induction ps using List.reverseRecOn with
  | nil => simp
  | append_singleton ps j ih =>
    rw [xorAt_filter_append_last, covers_two_pow, ← ih, List.filter_append, List.foldl_append]
    cases h : bitAt cw j <;> simp [h]

theorem syndrome_eq_xorOfOnes (cw : BitString) : syndrome cw = xorOfOnes cw :=
  Nat.eq_of_testBit_eq fun k => (testBit_syndrome cw k).trans (testBit_foldl_xor cw (positions cw.length) k).symm

theorem syndrome_xorBits {c d : BitString} (h : c.length = d.length) :
    syndrome (xorBits c d) = syndrome c ^^^ syndrome d := by
  refine Nat.eq_of_testBit_eq fun k => ?_
  rw [Nat.testBit_xor, testBit_syndrome, testBit_syndrome, testBit_syndrome, xorAt_xorBits h, xorBits_length, ← h,
    min_self]

@[simp] theorem syndrome_zeros (m : Nat) : syndrome (zeros m) = 0 :=
  Nat.eq_of_testBit_eq fun k => by rw [testBit_syndrome, xorAt_zeros, Nat.zero_testBit]

/-! ### Flips -/

theorem bitAt_flipAt_self {s : BitString} {p : Nat} (h1 : 1 ≤ p) (h2 : p ≤ s.length) :
    bitAt (flipAt s p) p = !bitAt s p := bitAt_setAt_self s p _ h1 h2

theorem bitAt_flipAt_of_ne {s : BitString} {p j : Nat} (h : p ≠ j) : bitAt (flipAt s p) j = bitAt s j :=
  bitAt_setAt_of_ne s p j _ h

theorem singleError_eq_flipAt_zeros {n p : Nat} (h1 : 1 ≤ p) (h2 : p ≤ n) : singleError n p = flipAt (zeros n) p := by
  have hlen := singleError_length h1 h2
  calc singleError n p = xorBits (zeros (singleError n p).length) (singleError n p) := (zeros_xorBits _).symm
    _ = flipAt (zeros n) p := by
      rw [hlen, flipAt_eq_xorBits_singleError h1 (by simpa using h2), zeros_length]

/-- One position of an increasing walk, chosen alone. -/
theorem filter_eq_singleton {ps : List Nat} {f : Nat → Bool} {p : Nat} (hps : ps.Pairwise (· < ·))
    (hf : ∀ j, j ∈ ps ∧ f j = true ↔ j = p) : ps.filter f = [p] :=
  (hps.filter f).eq_of_mem_iff (List.pairwise_singleton _ p) fun j => by
    rw [List.mem_filter, hf, List.mem_singleton]

/-- The only 1 of a single error stands at its position. -/
theorem syndrome_singleError {n q : Nat} (h1 : 1 ≤ q) (h2 : q ≤ n) : syndrome (singleError n q) = q := by
  have hones : (positions n).filter (bitAt (singleError n q)) = [q] := by
    refine filter_eq_singleton (positions_pairwise n) fun j => ?_
    rw [singleError_eq_flipAt_zeros h1 h2, mem_positions]
    by_cases hj : q = j
    · subst hj
      simp [bitAt_flipAt_self h1 (h2.trans_eq (zeros_length n).symm), h1, h2]
    · simp [bitAt_flipAt_of_ne hj, Ne.symm hj]
  rw [syndrome_eq_xorOfOnes, xorOfOnes, singleError_length h1 h2, hones]
  exact Nat.zero_xor q

theorem syndrome_flipAt {cw : BitString} {q : Nat} (h1 : 1 ≤ q) (h2 : q ≤ cw.length) :
    syndrome (flipAt cw q) = syndrome cw ^^^ q := by
  rw [flipAt_eq_xorBits_singleError h1 h2, syndrome_xorBits (singleError_length h1 h2).symm,
    syndrome_singleError h1 h2]

/-- Settles O36: bit by bit the syndrome and the XOR of the positions are the checks; a flip is the xor with a single
error, whose syndrome is its position. -/
theorem syndromeIsXorOfOnes : Obligations.SyndromeIsXorOfOnes :=
  ⟨syndrome_eq_xorOfOnes, fun _ _ => syndrome_xorBits, fun _ _ => syndrome_flipAt, syndrome_zeros⟩

end Sys2Proof.Machine

/-! PROOFS. The encoder: placement puts the data bits on the data positions, each parity bit makes its check even, and
the syndrome of the result is 0 (42_hamming_commands.md R122, R126 to R129). -/

namespace Sys2Proof.Machine

/-! ### Placement -/

theorem dataPositions_succ_of_isPow2 {k : Nat} (h : isPow2 (k + 1) = true) :
    dataPositions (k + 1) = dataPositions k := by
  simp [dataPositions, positions_succ, h]

theorem dataPositions_succ_of_not_isPow2 {k : Nat} (h : isPow2 (k + 1) = false) :
    dataPositions (k + 1) = dataPositions k ++ [k + 1] := by
  simp [dataPositions, positions_succ, h]

theorem map_bitAt_positions (s : BitString) : (positions s.length).map (bitAt s) = s := by
  refine List.ext_getElem (by simp) fun k _ hk => ?_
  simp [positions, Nat.add_comm 1, hk]

/-- Placement at a data position takes the next data bit. -/
theorem placeAt_of_not_isPow2 (data : BitString) (h : HamLatches) {pos : Nat} (hpos : isPow2 pos = false) :
    (h.placeAt data pos).didx = h.didx + 1 ∧
      (h.placeAt data pos).cw = setAt h.cw pos (bitAt data (h.didx + 1)) := by
  simp [HamLatches.placeAt, hpos]

theorem placeAt_didx_of_isPow2 (data : BitString) (h : HamLatches) {pos : Nat} (hpos : isPow2 pos = true) :
    (h.placeAt data pos).didx = h.didx := by
  simp [HamLatches.placeAt, hpos]

/-- What placement holds after the first `k` positions: the data positions so far carry the first data bits in their
order, and `DIDX` counts them. -/
structure Placed (data : BitString) (m k : Nat) (h : HamLatches) : Prop where
  length : h.cw.length = m
  didx : h.didx = (dataPositions k).length
  data : (dataPositions k).map (bitAt h.cw) = (positions (dataPositions k).length).map (bitAt data)

theorem placed_openPlacement (data : BitString) (m : Nat) (h : HamLatches) : Placed data m 0 (h.openPlacement m) :=
  ⟨zeros_length m, rfl, rfl⟩

/-- The next position leaves those before it as they are. -/
theorem Placed.placeAt {data : BitString} {m k : Nat} {h : HamLatches} (hplaced : Placed data m k h) (hk : k < m) :
    Placed data m (k + 1) (h.placeAt data (k + 1)) := by
  obtain ⟨-, -, -, -, -, -, hlen, hbelow⟩ := placeAt_keeps data h (k + 1)
  have hbefore : (dataPositions k).map (bitAt (h.placeAt data (k + 1)).cw) = (dataPositions k).map (bitAt h.cw) := by
    refine List.map_congr_left fun j hj => hbelow j ?_
    obtain ⟨-, hle, -⟩ := mem_dataPositions.1 hj
    omega
  cases hpow : isPow2 (k + 1) with
  | true =>
    refine ⟨hlen.trans hplaced.length, ?_, ?_⟩
    · rw [placeAt_didx_of_isPow2 data h hpow, dataPositions_succ_of_isPow2 hpow, hplaced.didx]
    · rw [dataPositions_succ_of_isPow2 hpow, hbefore, hplaced.data]
  | false =>
    obtain ⟨hdidx, hcw⟩ := placeAt_of_not_isPow2 data h hpow
    have hbit : bitAt (h.placeAt data (k + 1)).cw (k + 1) = bitAt data ((dataPositions k).length + 1) := by
      rw [hcw, bitAt_setAt_self _ _ _ (by omega) (by rw [hplaced.length]; omega), hplaced.didx]
    refine ⟨hlen.trans hplaced.length, ?_, ?_⟩
    · rw [hdidx, dataPositions_succ_of_not_isPow2 hpow, List.length_append, hplaced.didx, List.length_singleton]
    · rw [dataPositions_succ_of_not_isPow2 hpow, List.length_append, List.length_singleton, positions_succ,
        List.map_append, List.map_append, hbefore, hplaced.data, List.map_singleton, List.map_singleton, hbit]

theorem placed_foldl (data : BitString) {m k : Nat} (h : HamLatches) (hk : k ≤ m) :
    Placed data m k ((positions k).foldl (HamLatches.placeAt data) (h.openPlacement m)) := by
  induction k with
  | zero => exact placed_openPlacement data m h
  | succ k ih =>
    rw [positions_succ, List.foldl_append]
    exact (ih (by omega)).placeAt (by omega)

theorem placed_place (data : BitString) (m : Nat) (h : HamLatches) : Placed data m m (h.place data m) :=
  placed_foldl data h le_rfl

/-! ### One parity bit -/

/-- The other bits of a parity group (R127). -/
def othersOfGroup (i m : Nat) : List Nat := (cover (2 ^ i) m).filter (fun j => decide (j ≠ 2 ^ i))

theorem foldl_parityVisit_cw (i : Nat) (ps : List Nat) (h : HamLatches) :
    (ps.foldl (HamLatches.parityVisit i) h).cw = h.cw := by
  induction ps generalizing h with
  | nil => rfl
  | cons j ps ih => exact ih (h.parityVisit i j)

theorem parityVisit_acc (i : Nat) (h : HamLatches) (j : Nat) :
    (h.parityVisit i j).acc = Bool.xor h.acc ((covers (2 ^ i) j && decide (j ≠ 2 ^ i)) && bitAt h.cw j) := by
  simp only [HamLatches.parityVisit]
  cases covers (2 ^ i) j && decide (j ≠ 2 ^ i) <;> simp

theorem foldl_parityVisit_acc (i : Nat) (ps : List Nat) (h : HamLatches) :
    (ps.foldl (HamLatches.parityVisit i) h).acc =
      Bool.xor h.acc (xorAt h.cw (ps.filter fun j => covers (2 ^ i) j && decide (j ≠ 2 ^ i))) := by
  induction ps using List.reverseRecOn with
  | nil => simp
  | append_singleton ps j ih =>
    rw [List.foldl_append, List.foldl_cons, List.foldl_nil, parityVisit_acc, ih, foldl_parityVisit_cw,
      xorAt_filter_append_last, Bool.xor_assoc]

theorem filter_parityVisit_eq_othersOfGroup (i m : Nat) :
    (positions m).filter (fun j => covers (2 ^ i) j && decide (j ≠ 2 ^ i)) = othersOfGroup i m := by
  rw [othersOfGroup, cover, List.filter_filter]
  simp only [Bool.and_comm]

theorem closeParity_cw (i : Nat) (h : HamLatches) : (h.closeParity i).cw = setAt h.cw (2 ^ i) h.acc := rfl

/-- R127: a parity group writes the XOR of its other bits to its parity position. -/
theorem parityGroup_cw (m : Nat) (h : HamLatches) (i : Nat) :
    (h.parityGroup m i).cw = setAt h.cw (2 ^ i) (xorAt h.cw (othersOfGroup i m)) := by
  rw [HamLatches.parityGroup, closeParity_cw, foldl_parityVisit_cw, foldl_parityVisit_acc, openGroup_acc,
    Bool.false_xor, filter_parityVisit_eq_othersOfGroup]
  rfl

/-- A walk's XOR is that of the chosen positions with that of the others. -/
theorem xorAt_filter_xor_filter_not (cw : BitString) (f : Nat → Bool) (ps : List Nat) :
    Bool.xor (xorAt cw (ps.filter f)) (xorAt cw (ps.filter fun j => !f j)) = xorAt cw ps := by
  induction ps using List.reverseRecOn with
  | nil => rfl
  | append_singleton ps j ih =>
    have hbit : ∀ x y b g : Bool,
        Bool.xor (Bool.xor x (g && b)) (Bool.xor y (!g && b)) = Bool.xor (Bool.xor x y) b := by decide
    rw [xorAt_filter_append_last, xorAt_filter_append_last, xorAt_append_last, ← ih]
    exact hbit _ _ _ _

/-- A check is the parity bit with the rest of its group. -/
theorem xorAt_cover_eq (cw : BitString) {i m : Nat} (hm : 2 ^ i ≤ m) :
    xorAt cw (cover (2 ^ i) m) = Bool.xor (xorAt cw (othersOfGroup i m)) (bitAt cw (2 ^ i)) := by
  have hself : (cover (2 ^ i) m).filter (fun j => !decide (j ≠ 2 ^ i)) = [2 ^ i] := by
    refine filter_eq_singleton ((positions_pairwise m).filter _) fun j => ?_
    simp only [ne_eq, decide_not, Bool.not_not, decide_eq_true_eq, and_iff_right_iff_imp]
    rintro rfl
    exact mem_cover.2 ⟨Nat.one_le_two_pow, hm, Nat.testBit_two_pow_self⟩
  rw [← xorAt_filter_xor_filter_not cw (fun j => decide (j ≠ 2 ^ i)), hself, xorAt_singleton]
  rfl

theorem bitAt_parityGroup_cw_of_ne (m : Nat) (h : HamLatches) {i j : Nat} (hj : 2 ^ i ≠ j) :
    bitAt (h.parityGroup m i).cw j = bitAt h.cw j := by
  rw [parityGroup_cw, bitAt_setAt_of_ne _ _ _ _ hj]

@[simp] theorem parityGroup_cw_length (m : Nat) (h : HamLatches) (i : Nat) :
    (h.parityGroup m i).cw.length = h.cw.length := by
  rw [parityGroup_cw, setAt_length]

/-- The group's own check is even after it. -/
theorem xorAt_parityGroup_cw_self {m i : Nat} {h : HamLatches} (hlen : h.cw.length = m) (hi : 2 ^ i ≤ m) :
    xorAt (h.parityGroup m i).cw (cover (2 ^ i) m) = false := by
  have hothers : xorAt (h.parityGroup m i).cw (othersOfGroup i m) = xorAt h.cw (othersOfGroup i m) := by
    refine xorAt_congr fun j hj => bitAt_parityGroup_cw_of_ne m h ?_
    exact Ne.symm (of_decide_eq_true (List.mem_filter.1 hj).2)
  rw [xorAt_cover_eq _ hi, hothers, parityGroup_cw, bitAt_setAt_self _ _ _ Nat.one_le_two_pow (hlen ▸ hi),
    Bool.xor_self]

/-- No other check covers the group's parity position. -/
theorem xorAt_parityGroup_cw_of_ne (m : Nat) (h : HamLatches) {i k : Nat} (hk : k ≠ i) :
    xorAt (h.parityGroup m i).cw (cover (2 ^ k) m) = xorAt h.cw (cover (2 ^ k) m) := by
  refine xorAt_congr fun j hj => bitAt_parityGroup_cw_of_ne m h ?_
  rintro rfl
  obtain ⟨-, -, hbit⟩ := mem_cover.1 hj
  exact absurd (Nat.testBit_two_pow_of_ne hk.symm) (by simp [hbit])

/-! ### All parity bits -/

theorem parity_succ (r m : Nat) (h : HamLatches) : h.parity (r + 1) m = (h.parity r m).parityGroup m r := by
  simp [HamLatches.parity, List.range_succ]

@[simp] theorem parity_cw_length (r m : Nat) (h : HamLatches) : (h.parity r m).cw.length = h.cw.length := by
  induction r with
  | zero => rfl
  | succ r ih => rw [parity_succ, parityGroup_cw_length, ih]

theorem bitAt_parity_cw_of_not_isPow2 (r m : Nat) (h : HamLatches) {j : Nat} (hj : isPow2 j = false) :
    bitAt (h.parity r m).cw j = bitAt h.cw j := by
  induction r with
  | zero => rfl
  | succ r ih =>
    rw [parity_succ, bitAt_parityGroup_cw_of_ne m _ fun heq => (isPow2_eq_false_iff j).1 hj ⟨r, heq.symm⟩, ih]

/-- The invariant of step 3: the checks of the parity bits computed so far are even. -/
theorem xorAt_parity_cw {r m : Nat} {h : HamLatches} (hlen : h.cw.length = m) (hr : ∀ i < r, 2 ^ i ≤ m) :
    ∀ i < r, xorAt (h.parity r m).cw (cover (2 ^ i) m) = false := by
  induction r with
  | zero => exact fun i hi => absurd hi (Nat.not_lt_zero i)
  | succ r ih =>
    intro i hi
    rw [parity_succ]
    by_cases hir : i = r
    · subst hir
      exact xorAt_parityGroup_cw_self (by simpa using hlen) (hr i hi)
    · rw [xorAt_parityGroup_cw_of_ne m _ hir]
      exact ih (fun k hk => hr k (by omega)) i (by omega)

/-! ### The whole encode, from any latches -/

section
variable (h : HamLatches) (data : BitString)

@[simp] theorem encode_cw_length : (h.encode data).cw.length = data.length + rEnc data.length := by
  rw [HamLatches.encode, parity_cw_length, (placed_place data _ _).length]

/-- R122: step 3 writes parity positions only, so the data positions stay as placed. -/
theorem extractData_encode_cw (hn : 1 ≤ data.length) : extractData (h.encode data).cw = data := by
  have hplaced := (placed_place data (data.length + rEnc data.length) { h with r := rEnc data.length }).data
  rw [dataPositions_length hn, map_bitAt_positions] at hplaced
  rw [extractData, encode_cw_length]
  refine (List.map_congr_left fun j hj => ?_).trans hplaced
  obtain ⟨-, -, hpow⟩ := mem_dataPositions.1 hj
  exact bitAt_parity_cw_of_not_isPow2 _ _ _ hpow

/-- R129 on the encoded word. -/
theorem xorAt_encode_cw {i : Nat} (hn : 1 ≤ data.length) (hi : i < rEnc data.length) :
    xorAt (h.encode data).cw (cover (2 ^ i) (data.length + rEnc data.length)) = false :=
  xorAt_parity_cw (placed_place data _ _).length (fun _ hk => (two_pow_lt_of_lt_rEnc hn hk).le) i hi

/-- R133's reason: the checks of the parity bits are even, and no other check covers a position. -/
theorem syndrome_encode_cw (hn : 1 ≤ data.length) : syndrome (h.encode data).cw = 0 := by
  refine Nat.eq_of_testBit_eq fun k => ?_
  rw [testBit_syndrome, encode_cw_length, Nat.zero_testBit]
  by_cases hk : k < rEnc data.length
  · exact xorAt_encode_cw h data hn hk
  · rw [cover_eq_nil (not_le.1 fun hle => hk (lt_rEnc_of_two_pow_le hn hle)), xorAt_nil]

end

/-- Settles O30, from placement; which positions carry data is the layout's. -/
theorem dataPositionsHoldData : Obligations.DataPositionsHoldData := by
  refine ⟨fun data hn => ⟨encode_cw_length _ data, extractData_encode_cw _ data hn⟩, fun m j => ?_,
    dataPositions_pairwise⟩
  rw [mem_dataPositions, isPow2_eq_false_iff]

end Sys2Proof.Machine

/-! PROOFS. `HAM_DEC` on an encoded codeword, clean or with bits flipped (42_hamming_commands.md R129, R133 to
R136). -/

namespace Sys2Proof.Machine

/-! ### Responses -/

/-- The causes of R151 that `HAM_ENC` can raise are the failures of R128's validity. -/
theorem invalid_hamEnc (cap : Capacity) (n y : Nat) : invalid cap 0b10#2 n y = !validHamEnc cap n := by
  rw [Bool.eq_iff_iff]
  simp [invalid, validHamEnc, or_assoc]

theorem validHamEnc_iff (cap : Capacity) (n : Nat) :
    validHamEnc cap n = true ↔ 1 ≤ n ∧ cap.admits (n + rEnc n) = true := by
  simp only [validHamEnc, Bool.and_eq_true, decide_eq_true_eq, and_assoc]
  exact ⟨fun ⟨hn, _, hm⟩ => ⟨hn, hm⟩, fun ⟨hn, hm⟩ => ⟨hn, Capacity.admits_of_le (Nat.le_add_right n _) hm, hm⟩⟩

theorem validHamDec_iff (cap : Capacity) (m : Nat) : validHamDec cap m = true ↔ 1 ≤ m ∧ cap.admits m = true := by
  simp [validHamDec]

theorem replyTo_hamEnc_of_valid {s : State} {a : Operand} (b : Operand) (h : validHamEnc s.cap a.len = true) :
    s.replyTo (.hamEnc a b) = .hamEnc (s.ham.encode a.value).cw := by
  simp [State.replyTo, invalid_hamEnc, h]

theorem replyTo_hamDec_of_valid {s : State} {a : Operand} (b : Operand) (h : validHamDec s.cap a.len = true) :
    s.replyTo (.hamDec a b) = .hamDec a.value (syndrome a.value) := by
  simp [State.replyTo, invalid_hamDec, h]

theorem hamDec_zero (cw : BitString) :
    Response.hamDec cw 0 = { status := .ok, flag := false, r0 := cw, r1 := [], errpos := 0 } := rfl

theorem hamDec_of_le {cw : BitString} {e : Nat} (h1 : 1 ≤ e) (h2 : e ≤ cw.length) :
    Response.hamDec cw e = { status := .ok, flag := false, r0 := flipAt cw e, r1 := [], errpos := e } := by
  have hne : e ≠ 0 := by omega
  simp [Response.hamDec, decodeStatus, correctAt, hne, h2]

theorem hamDec_of_length_lt {cw : BitString} {e : Nat} (h : cw.length < e) :
    Response.hamDec cw e = { status := .syndromeRange, flag := false, r0 := cw, r1 := [], errpos := e } := by
  simp [Response.hamDec, decodeStatus, correctAt, not_le.2 h]

/-! ### An encoded codeword -/

section
variable {s t : State} {a b : Operand} {r : Response}

theorem r0_of_answers_hamEnc (hvalid : validHamEnc s.cap a.len = true) (hr : Answers s (.hamEnc a b) r) :
    r.r0 = (s.ham.encode a.value).cw := by
  rw [answers_iff, replyTo_hamEnc_of_valid b hvalid] at hr
  rw [← hr]
  rfl

theorem r0_length_of_answers_hamEnc (hvalid : validHamEnc s.cap a.len = true) (hr : Answers s (.hamEnc a b) r) :
    r.r0.length = a.len + rEnc a.len := by
  rw [r0_of_answers_hamEnc hvalid hr, encode_cw_length, value_length]

theorem syndrome_r0_of_answers_hamEnc (hvalid : validHamEnc s.cap a.len = true) (hr : Answers s (.hamEnc a b) r) :
    syndrome r.r0 = 0 := by
  obtain ⟨hn, -⟩ := (validHamEnc_iff _ _).1 hvalid
  rw [r0_of_answers_hamEnc hvalid hr]
  exact syndrome_encode_cw s.ham a.value (by simpa using hn)

/-- Whatever happens to the bits of an encoded codeword, its length is one the decoder accepts. -/
theorem answers_hamDec_of_length_eq (b' : Operand) {x : BitString} (hcap : t.cap = s.cap)
    (hvalid : validHamEnc s.cap a.len = true) (hr : Answers s (.hamEnc a b) r) (hx : x.length = r.r0.length) :
    Answers t (.hamDec (.ofBits x) b') (.hamDec x (syndrome x)) := by
  obtain ⟨hn, hadmits⟩ := (validHamEnc_iff _ _).1 hvalid
  have hdec : validHamDec t.cap (Operand.ofBits x).len = true := by
    rw [validHamDec_iff, ofBits_len, hx, r0_length_of_answers_hamEnc hvalid hr, hcap]
    exact ⟨by omega, hadmits⟩
  rw [answers_iff, replyTo_hamDec_of_valid b' hdec, value_ofBits]

end

/-- Settles O35: the checks are the bits of the codeword's syndrome, which is 0. -/
theorem encodedChecksAreEven : Obligations.EncodedChecksAreEven := by
  intro s a b r i hvalid hr _
  rw [← testBit_syndrome, syndrome_r0_of_answers_hamEnc hvalid hr, Nat.zero_testBit]

/-- Settles O37: the syndrome of the codeword is 0. -/
theorem cleanCodewordDecodesClean : Obligations.CleanCodewordDecodesClean := by
  intro s t a b b' r hcap hvalid hr
  have hdec := answers_hamDec_of_length_eq b' hcap hvalid hr rfl
  rwa [syndrome_r0_of_answers_hamEnc hvalid hr, hamDec_zero] at hdec

/-! ### Flips of an encoded codeword -/

theorem flipAt_flipAt {s : BitString} {q : Nat} (h1 : 1 ≤ q) (h2 : q ≤ s.length) : flipAt (flipAt s q) q = s := by
  refine ext_bitAt (by simp) fun j _ _ => ?_
  by_cases hj : q = j
  · subst hj
    rw [bitAt_flipAt_self h1 (by simpa using h2), bitAt_flipAt_self h1 h2, Bool.not_not]
  · rw [bitAt_flipAt_of_ne hj, bitAt_flipAt_of_ne hj]

theorem syndrome_flipAt_of_syndrome_zero {c : BitString} {q : Nat} (hc : syndrome c = 0) (h1 : 1 ≤ q)
    (h2 : q ≤ c.length) : syndrome (flipAt c q) = q := by
  rw [syndrome_flipAt h1 h2, hc, Nat.zero_xor]

theorem syndrome_flipAt_flipAt_of_syndrome_zero {c : BitString} {p q : Nat} (hc : syndrome c = 0) (hp1 : 1 ≤ p)
    (hp2 : p ≤ c.length) (hq1 : 1 ≤ q) (hq2 : q ≤ c.length) : syndrome (flipAt (flipAt c p) q) = p ^^^ q := by
  rw [syndrome_flipAt hq1 (by simpa using hq2), syndrome_flipAt_of_syndrome_zero hc hp1 hp2]

/-- Settles O38: the syndrome is the flipped position, and flipping it again restores the codeword. -/
theorem singleFlipIsCorrected : Obligations.SingleFlipIsCorrected := by
  intro s t a b b' r q hcap hvalid hr h1 h2
  have hdec := answers_hamDec_of_length_eq b' hcap hvalid hr (flipAt_length r.r0 q)
  rwa [syndrome_flipAt_of_syndrome_zero (syndrome_r0_of_answers_hamEnc hvalid hr) h1 h2,
    hamDec_of_le h1 (by simpa using h2), flipAt_flipAt h1 h2] at hdec

/-- Settles O40: the syndrome is the XOR of the two positions, which is 0 for equal ones only; three flips at 1, 2
and 3 of the codeword "000" give "111", whose syndrome is 0. -/
theorem doubleFlipResponse : Obligations.DoubleFlipResponse := by
  refine ⟨by decide, ?_⟩
  intro s t a b b' r p q hcap hvalid hr hp1 hp2 hq1 hq2 hpq x
  have hlen : x.length = r.r0.length := by simp [x]
  have hne : p ^^^ q ≠ 0 := Nat.xor_eq_zero_iff.not.2 hpq
  have hdec := answers_hamDec_of_length_eq b' hcap hvalid hr hlen
  rw [syndrome_flipAt_flipAt_of_syndrome_zero (syndrome_r0_of_answers_hamEnc hvalid hr) hp1 hp2 hq1 hq2] at hdec
  refine ⟨hne, fun hle => ?_, fun hlt => ?_⟩
  · rwa [hamDec_of_le (Nat.one_le_iff_ne_zero.2 hne) (hlen ▸ hle)] at hdec
  · rwa [hamDec_of_length_lt (hlen ▸ hlt)] at hdec

/-! ### The range of the syndrome -/

theorem syndrome_lt_two_pow_rDec (cw : BitString) : syndrome cw < 2 ^ rDec cw.length := by
  refine Nat.lt_pow_two_of_testBit _ fun k hk => ?_
  have hm : cw.length < 2 ^ k := (lt_two_pow_rDec _).trans_le (Nat.pow_le_pow_right two_pos hk)
  rw [testBit_syndrome, cover_eq_nil hm, xorAt_nil]

theorem two_pow_rDec_eq_two_mul (m : Nat) : 2 ^ rDec m = 2 * 2 ^ (rDec m - 1) :=
  (mul_pow_sub_one (Nat.one_le_iff_ne_zero.1 (one_le_rDec m)) 2).symm

theorem two_pow_rDec_le_two_mul {m : Nat} (hm : 1 ≤ m) : 2 ^ rDec m ≤ 2 * m := by
  rw [two_pow_rDec_eq_two_mul]
  exact Nat.mul_le_mul_left 2 (two_pow_rDec_sub_one_le hm)

theorem rDec_le_lenW {cap m : Nat} (h : m ≤ cap) : rDec m ≤ lenW cap :=
  (rDec_le_iff (Nat.le_add_left 1 _)).2 (h.trans_lt Nat.lt_log2_self)

/-- A power of two above a number shares no bit with it. -/
theorem xor_two_pow_eq_add {x r : Nat} (hx : x < 2 ^ r) : x ^^^ 2 ^ r = x + 2 ^ r := by
  refine Nat.eq_of_testBit_eq fun k => ?_
  rw [testBit_add_two_pow hx, Nat.testBit_xor, Nat.testBit_two_pow]
  by_cases hk : k = r
  · subst hk
    simp [Nat.testBit_lt_two_pow hx]
  · simp [hk, Ne.symm hk]

/-- Two ones suffice for the syndrome `m + 1`: the leading bit of its numeral and the rest. -/
theorem exists_syndrome_eq_succ {m : Nat} (hm : 1 ≤ m) (hlt : m + 1 < 2 ^ rDec m) :
    ∃ cw : BitString, cw.length = m ∧ syndrome cw = m + 1 := by
  have hle := two_pow_rDec_sub_one_le hm
  have hlead : 1 ≤ 2 ^ (rDec m - 1) := Nat.one_le_two_pow
  rw [two_pow_rDec_eq_two_mul] at hlt
  generalize rDec m - 1 = i at hle hlt hlead
  have hsum : (m + 1 - 2 ^ i) ^^^ 2 ^ i = m + 1 := by
    rw [xor_two_pow_eq_add (by omega)]
    omega
  refine ⟨flipAt (flipAt (zeros m) (m + 1 - 2 ^ i)) (2 ^ i), by simp, ?_⟩
  rw [syndrome_flipAt_flipAt_of_syndrome_zero (syndrome_zeros m) (by omega) (by simp; omega) hlead (by simpa using hle),
    hsum]

/-- Settles O39: no check past `r_dec(m)` covers a position; above `m` the numeral leaves room for `m + 1` unless it is
all ones; an encoded codeword has syndrome 0, and with one flip the flipped position. -/
theorem syndromeRange : Obligations.SyndromeRange := by
  refine ⟨fun cw hcw => ⟨?_, ?_⟩, fun cap cw _ hcap => ⟨rDec_le_lenW hcap, ?_⟩, fun m hm hform => ?_,
    fun data q hn h1 h2 => ?_⟩
  · exact Nat.le_sub_one_of_lt (syndrome_lt_two_pow_rDec cw)
  · exact Nat.sub_le_sub_right (two_pow_rDec_le_two_mul hcw) 1
  · exact Nat.testBit_lt_two_pow ((syndrome_lt_two_pow_rDec cw).trans_le
      (Nat.pow_le_pow_right two_pos (rDec_le_lenW hcap)))
  · have hlt := lt_two_pow_rDec m
    have hne : m ≠ 2 ^ rDec m - 1 := fun h => hform ⟨_, h⟩
    obtain ⟨cw, hlen, hsyn⟩ := exists_syndrome_eq_succ hm (by omega)
    exact ⟨cw, hlen, by omega⟩
  · have hzero : syndrome (hamCodeword data) = 0 := syndrome_encode_cw .reset data hn
    rw [syndrome_flipAt_of_syndrome_zero hzero h1 h2, hzero]
    exact ⟨Nat.zero_le _, h2⟩

end Sys2Proof.Machine

/-! PROOFS. The causes of `InvalidInput` (60_exceptions.md R151): each command's causes are the failures of its
validity (41_crc_commands.md R100, R102; 42_hamming_commands.md R128, R132), bound by bound. -/

namespace Sys2Proof.Machine

/-! ### The failures of each validity -/

/-- How a bound on a length fails, as the validity checks write it. -/
theorem decide_le_eq_false_iff (m n : Nat) : decide (m ≤ n) = false ↔ n < m :=
  decide_eq_false_iff_not.trans Nat.not_le

theorem validCrcEnc_eq_false_iff (cap : Capacity) (data key : Nat) :
    validCrcEnc cap data key = false ↔
      data = 0 ∨ ¬ cap.admits data ∨ key < 2 ∨ ¬ cap.admits key ∨ ¬ cap.admits (data + key - 1) := by
  simp only [validCrcEnc, Bool.and_eq_false_iff, decide_le_eq_false_iff, Nat.lt_one_iff, Bool.not_eq_true, or_assoc]

theorem validCrcVfy_eq_false_iff (cap : Capacity) (codeword key : Nat) :
    validCrcVfy cap codeword key = false ↔
      codeword = 0 ∨ ¬ cap.admits codeword ∨ key < 2 ∨ ¬ cap.admits key ∨ codeword < key := by
  simp only [validCrcVfy, Bool.and_eq_false_iff, decide_le_eq_false_iff, Nat.lt_one_iff, Bool.not_eq_true, or_assoc]

theorem validHamEnc_eq_false_iff (cap : Capacity) (n : Nat) :
    validHamEnc cap n = false ↔ n = 0 ∨ ¬ cap.admits n ∨ ¬ cap.admits (n + rEnc n) := by
  simp only [validHamEnc, Bool.and_eq_false_iff, decide_le_eq_false_iff, Nat.lt_one_iff, Bool.not_eq_true, or_assoc]

theorem validHamDec_eq_false_iff (cap : Capacity) (m : Nat) :
    validHamDec cap m = false ↔ m = 0 ∨ ¬ cap.admits m := by
  simp only [validHamDec, Bool.and_eq_false_iff, decide_le_eq_false_iff, Nat.lt_one_iff, Bool.not_eq_true]

/-- Settles O10: the check rejects a command exactly when its validity fails, one row per command. -/
theorem invalidCausesByCommand : Obligations.InvalidCausesByCommand := by
  intro cap x y
  refine ⟨?crcEnc, ?crcVfy, ?hamEnc, ?hamDec⟩
  case crcEnc => rw [invalid_crcEnc, Bool.not_eq_true', validCrcEnc_eq_false_iff]
  case crcVfy => rw [invalid_crcVfy, Bool.not_eq_true', validCrcVfy_eq_false_iff]
  case hamEnc => rw [invalid_hamEnc, Bool.not_eq_true', validHamEnc_eq_false_iff]
  case hamDec => rw [invalid_hamDec, Bool.not_eq_true', validHamDec_eq_false_iff]

end Sys2Proof.Machine

/-! PROOFS. A response held in DONE (10_state.md R36; 70_reset_and_hazards.md R176): what one step without reset and
without `rsp_ready` leaves, and any number of them. -/

namespace Sys2Proof.Machine

/-! ### The events of a step -/

theorem State.acceptedNow_of_phase_ne_idle {s : State} (h : s.phase ≠ .idle) : s.acceptedNow = none := by
  simp [State.acceptedNow, h]

theorem State.takenNow_of_not_rspReady {s : State} (h : s.now.rspReady = false) : s.takenNow = none := by
  simp [State.takenNow, h]

theorem State.eventsNow_of_not_rst {s : State} (h : s.now.rst = false) :
    s.eventsNow = s.acceptedNow.toList.map .accepted ++ s.takenNow.toList.map .took := by
  simp [State.eventsNow, h]

theorem events_succ_of_next {s t : State} (k : Nat) (h : step s = .next t) :
    events (k + 1) s = s.eventsNow ++ events k t := by
  rw [events, h]

/-! ### The host's moves over several steps -/

@[simp] theorem Tick.quiet_rspReady : Tick.quiet.rspReady = false := rfl

/-- What holds of the next scheduled moves holds of this step's, where it holds of the host that does nothing: the
schedule may have ended. -/
theorem now_of_forall_mem_take {p : Tick → Prop} {s : State} {k : Nat} (hquiet : p .quiet)
    (h : ∀ n ∈ s.inputs.take (k + 1), p n) : p s.now := by
  cases hin : s.inputs with
  | nil => rwa [now_of_no_inputs s hin]
  | cons n rest =>
    rw [now_of_inputs s n rest hin]
    exact h n (by simp [hin])

theorem forall_mem_take_tail {p : Tick → Prop} {l : List Tick} {k : Nat} (h : ∀ n ∈ l.take (k + 1), p n) :
    ∀ n ∈ l.tail.take k, p n := by
  cases l with
  | nil => simp
  | cons n rest => exact (List.forall_mem_cons.1 h).2

/-! ### Holding a response -/

section
variable {s : State} (hphase : s.phase = .done) (hrst : s.now.rst = false) (hready : s.now.rspReady = false)
include hphase hrst hready

/-- A step that neither resets nor takes uses up the move and notes what was presented, and nothing else. -/
theorem step_of_done_held : step s = .next s.notePresented.consume := by
  have hdone : onDone s = s.notePresented.consume := by
    rcases onDone_cases s with ⟨htake, -⟩ | ⟨-, h⟩
    · simp [hready] at htake
    · exact h
  rcases step_cases s with ⟨hreset, -⟩ | ⟨-, hidle, -⟩ | ⟨-, hbusy, -⟩ | ⟨-, -, h⟩
  · simp [hrst] at hreset
  · simp [hphase] at hidle
  · simp [hphase] at hbusy
  · rw [h, hdone]

theorem eventsNow_of_done_held : s.eventsNow = [] := by
  have hidle : s.phase ≠ .idle := by simp [hphase]
  rw [State.eventsNow_of_not_rst hrst, State.acceptedNow_of_phase_ne_idle hidle,
    State.takenNow_of_not_rspReady hready]
  rfl

end

/-- Settles O47, by induction on the number of steps: the first one keeps PHASE and RSP, and the moves left after it
still neither reset nor take. -/
theorem responseHeldUntilTaken : Obligations.ResponseHeldUntilTaken := by
  intro k
  induction k with
  | zero =>
    intro s t hphase _ hrun
    rw [core_run_zero] at hrun
    cases hrun
    exact ⟨hphase, rfl, rfl, rfl⟩
  | succ k ih =>
    intro s t hphase hmoves hrun
    obtain ⟨hrst, hready⟩ := now_of_forall_mem_take (by simp) hmoves
    have hstep := step_of_done_held hphase hrst hready
    rw [core_run_succ k _ _ hstep] at hrun
    obtain ⟨hphase', hrsp, hinputs, hevents⟩ := ih _ t (by simpa using hphase) (forall_mem_take_tail hmoves) hrun
    refine ⟨hphase', by simpa using hrsp, by simpa using hinputs, ?_⟩
    rw [events_succ_of_next k hstep, eventsNow_of_done_held hphase hrst hready, hevents, List.append_nil]

end Sys2Proof.Machine

/-! PROOFS. What the two units leave in their latches (40_gf2_divider.md R83 to R88; 42_hamming_commands.md R126 to
R131): each latch after a whole division, encode or decode, from any latches it started with. -/

namespace Sys2Proof.Machine

/-! ### The divider -/

/-- R88: the division ends with the dividend in `DIVD` and `PICK` at its length. -/
theorem divide_eq {d k : BitString} (h : k.length ≤ d.length) :
    DivLatches.divide d k = { divd := d, tmp := (DivLatches.divide d k).tmp, pick := d.length } := by
  have hpick : (DivLatches.divide d k).pick = d.length := by
    rw [DivLatches.divide, iterations_pick, load_pick, Nat.add_sub_cancel' h]
  have hdivd : (DivLatches.divide d k).divd = d := iterations_divd _ _ _
  generalize DivLatches.divide d k = v at hpick hdivd ⊢
  obtain ⟨divd, tmp, pick⟩ := v
  simp only at hpick hdivd
  rw [hpick, hdivd]

/-- The window of step 2 holds `L` bits, the last of them the dividend bit at `PICK`. -/
theorem iterations_load_window {d k : BitString} {c : Nat} (hk : 2 ≤ k.length) (h : k.length + c ≤ d.length) :
    (DivLatches.iterations k c (.load d k.length)).tmp.length = k.length ∧
      bitAt (DivLatches.iterations k c (.load d k.length)).tmp k.length = bitAt d (k.length + c) := by
  have hreg := mod2divSerial_length hk (d.take (k.length - 1 + c))
  have hlen : (mod2divSerial (d.take (k.length - 1 + c)) k).length + 1 = k.length := by
    rw [hreg, List.length_tail]; omega
  have hlast := bitAt_append_last (mod2divSerial (d.take (k.length - 1 + c)) k) (bitAt d (k.length + c))
  rw [hlen] at hlast
  rw [iterations_load_tmp hk c h, List.length_append, List.length_singleton]
  exact ⟨hlen, hlast⟩

/-- Settles O52: `PICK` counts the iterations, and the window is a serial register with the last bit after it. -/
theorem dividerWindowProgress : Obligations.DividerWindowProgress := fun _ _ _ hk h =>
  ⟨iterations_pick _ _ _, iterations_divd _ _ _, iterations_load_window hk h⟩

/-! ### Walks of the Hamming unit -/

/-- A walk whose visits write `J` and `ACC` only ends with `J` at the last position. -/
theorem foldl_visit_eq {visit : HamLatches → Nat → HamLatches}
    (hvisit : ∀ g j, visit g j = { g with j := j, acc := (visit g j).acc }) {m : Nat} (hm : 1 ≤ m) (h : HamLatches) :
    (positions m).foldl visit h = { h with j := m, acc := ((positions m).foldl visit h).acc } := by
  induction m, hm using Nat.le_induction with
  | base => exact hvisit h 1
  | succ m _ ih =>
    rw [positions_succ, List.foldl_append, List.foldl_cons, List.foldl_nil, hvisit, ih]

/-- A parity group writes its loop variables and its parity bit. -/
theorem parityGroup_eq {m : Nat} (hm : 1 ≤ m) (h : HamLatches) (i : Nat) :
    h.parityGroup m i =
      { h with pi := i, j := m, acc := (h.parityGroup m i).acc, cw := (h.parityGroup m i).cw } := by
  unfold HamLatches.parityGroup
  rw [foldl_visit_eq (parityVisit_keeps i) hm]
  rfl

/-- A check writes its loop variables and `ERRACC`. -/
theorem checkGroup_eq {m : Nat} (hm : 1 ≤ m) (h : HamLatches) (i : Nat) :
    h.checkGroup m i =
      { h with pi := i, j := m, acc := (h.checkGroup m i).acc, errAcc := (h.checkGroup m i).errAcc } := by
  unfold HamLatches.checkGroup
  rw [foldl_visit_eq (checkVisit_keeps i) hm]
  rfl

/-- Encode step 3 ends with its loop variables at the last parity bit and the last position. -/
theorem parity_eq {r m : Nat} (hr : 1 ≤ r) (hm : 1 ≤ m) (h : HamLatches) :
    h.parity r m = { h with pi := r - 1, j := m, acc := (h.parity r m).acc, cw := (h.parity r m).cw } := by
  induction r, hr using Nat.le_induction with
  | base => exact parityGroup_eq hm h 0
  | succ r _ ih => rw [parity_succ, parityGroup_eq hm, ih]; rfl

/-- The checks end with their loop variables at the last check and the last position. -/
theorem checks_eq {r m : Nat} (hr : 1 ≤ r) (hm : 1 ≤ m) (h : HamLatches) :
    h.checks r m = { h with pi := r - 1, j := m, acc := (h.checks r m).acc, errAcc := (h.checks r m).errAcc } := by
  induction r, hr using Nat.le_induction with
  | base => exact checkGroup_eq hm h.openChecks 0
  | succ r _ ih => rw [checks_succ, checkGroup_eq hm, ih]; rfl

/-- Placement ends with `POS` at the last position, and keeps what it does not write. -/
theorem foldl_placeAt_eq (data : BitString) {m : Nat} (hm : 1 ≤ m) (h : HamLatches) :
    (positions m).foldl (HamLatches.placeAt data) h =
      { h with pos := m, didx := ((positions m).foldl (HamLatches.placeAt data) h).didx
               cw := ((positions m).foldl (HamLatches.placeAt data) h).cw } := by
  have hone : ∀ (g : HamLatches) (pos : Nat),
      g.placeAt data pos = { g with pos := pos, didx := (g.placeAt data pos).didx, cw := (g.placeAt data pos).cw } := by
    intro g pos
    unfold HamLatches.placeAt
    split <;> rfl
  induction m, hm using Nat.le_induction with
  | base => exact hone h 1
  | succ m _ ih =>
    rw [positions_succ, List.foldl_append, List.foldl_cons, List.foldl_nil, hone, ih]

/-! ### The codeword and the latches it started from -/

/-- Placement reads no latch but `CW` and `DIDX`, which its start writes. -/
theorem foldl_placeAt_congr (data : BitString) (ps : List Nat) {g h : HamLatches} (hcw : g.cw = h.cw)
    (hdidx : g.didx = h.didx) :
    (ps.foldl (HamLatches.placeAt data) g).cw = (ps.foldl (HamLatches.placeAt data) h).cw := by
  induction ps generalizing g h with
  | nil => exact hcw
  | cons pos ps ih =>
    simp only [List.foldl_cons]
    cases hpow : isPow2 pos with
    | true => exact ih (by simp [HamLatches.placeAt, hpow, hcw]) (by simp [HamLatches.placeAt, hpow, hdidx])
    | false => exact ih (by simp [HamLatches.placeAt, hpow, hcw, hdidx]) (by simp [HamLatches.placeAt, hpow, hdidx])

/-- The parity bits are functions of `CW`. -/
theorem parity_cw_congr (r m : Nat) {g h : HamLatches} (hcw : g.cw = h.cw) : (g.parity r m).cw = (h.parity r m).cw := by
  induction r with
  | zero => exact hcw
  | succ r ih => rw [parity_succ, parity_succ, parityGroup_cw, parityGroup_cw, ih]

/-- The latches an encode starts from take no part in its codeword. -/
@[simp] theorem encode_cw (h : HamLatches) (data : BitString) : (h.encode data).cw = hamCodeword data :=
  parity_cw_congr _ _ (foldl_placeAt_congr data _ rfl rfl)

@[simp] theorem hamCodeword_length (data : BitString) :
    (hamCodeword data).length = data.length + rEnc data.length := encode_cw_length _ data

/-! ### The latches after a whole command -/

/-- R128: every latch of the Hamming unit after an encode. -/
theorem encode_eq (h : HamLatches) {data : BitString} (hn : 1 ≤ data.length) :
    h.encode data =
      { r := rEnc data.length, cw := hamCodeword data, pos := data.length + rEnc data.length, didx := data.length
        pi := rEnc data.length - 1, j := data.length + rEnc data.length, acc := (h.encode data).acc
        errAcc := h.errAcc } := by
  have hr := two_le_rEnc hn
  have hdidx := (placed_place data (data.length + rEnc data.length) { h with r := rEnc data.length }).didx
  rw [dataPositions_length hn] at hdidx
  have hcw := encode_cw h data
  unfold HamLatches.encode at hcw ⊢
  unfold HamLatches.place at hdidx hcw ⊢
  dsimp only at hdidx hcw ⊢
  rw [parity_eq (by omega) (by omega), hcw, foldl_placeAt_eq data (by omega), hdidx]
  rfl

/-- R130: every latch of the Hamming unit after the checks of a received word. -/
theorem decode_eq (h : HamLatches) {cw : BitString} (hm : 1 ≤ cw.length) :
    h.decode cw =
      { h with r := rDec cw.length, cw := cw, pi := rDec cw.length - 1, j := cw.length, acc := (h.decode cw).acc
               errAcc := syndrome cw } := by
  rw [← decode_errAcc h cw]
  unfold HamLatches.decode
  dsimp only
  rw [checks_eq (one_le_rDec _) hm]

end Sys2Proof.Machine

/-! PROOFS. What `exec` does with a valid command and with an invalid one, and that the answer is a function of the
capacity and the command (10_state.md R20; 41_crc_commands.md R100, R102; 42_hamming_commands.md R128, R132;
60_exceptions.md R153). -/

namespace Sys2Proof.Machine

/-! ### Valid and invalid commands -/

/-- R151 against the commands' own rules: a command is rejected exactly when it is not valid. -/
theorem invalidInstr_eq_not_validInstr (cap : Capacity) (i : Instr) : invalidInstr cap i = !validInstr cap i := by
  cases i with
  | crcEnc a b => exact invalid_crcEnc cap a.len b.len
  | crcVfy a b => exact invalid_crcVfy cap a.len b.len
  | hamEnc a b => exact invalid_hamEnc cap a.len b.len
  | hamDec a b => exact invalid_hamDec cap a.len b.len

theorem exec_of_invalid {i : Instr} {s : State} (h : validInstr s.cap i = false) :
    exec i s = .next (s.captureInstr i).reject := by
  rcases exec_cases i s with ⟨-, hexec⟩ | ⟨hvalid, -⟩
  · exact hexec
  · simp [invalidInstr_eq_not_validInstr, h] at hvalid

section
variable {s : State} {a b : Operand}

theorem exec_crcEnc_of_valid (h : validCrcEnc s.cap a.len b.len = true) :
    exec (.crcEnc a b) s =
      .next ({ s.captureInstr (.crcEnc a b) with div := .divide (padded a.value b.value) b.value }.answer
        (.crcEnc a.value (mod2div (padded a.value b.value) b.value))) := by
  simp only [exec, execCrcEnc, invalid_crcEnc, h]
  rfl

theorem exec_crcVfy_of_valid (h : validCrcVfy s.cap a.len b.len = true) :
    exec (.crcVfy a b) s =
      .next ({ s.captureInstr (.crcVfy a b) with div := .divide a.value b.value }.answer
        (.crcVfy (mod2div a.value b.value))) := by
  simp only [exec, execCrcVfy, invalid_crcVfy, h]
  rfl

theorem exec_hamEnc_of_valid (h : validHamEnc s.cap a.len = true) :
    exec (.hamEnc a b) s =
      .next ({ s.captureInstr (.hamEnc a b) with ham := s.ham.encode a.value }.answer
        (.hamEnc (hamCodeword a.value))) := by
  rw [← encode_cw s.ham]
  simp only [exec, execHamEnc, invalid_hamEnc, h]
  rfl

theorem exec_hamDec_of_valid (h : validHamDec s.cap a.len = true) :
    exec (.hamDec a b) s =
      .next ({ s.captureInstr (.hamDec a b) with ham := s.ham.decode a.value }.answer
        (.hamDec a.value (syndrome a.value))) := by
  rw [← decode_errAcc s.ham]
  conv_rhs => rw [← decode_cw s.ham a.value]
  simp only [exec, execHamDec, invalid_hamDec, h, decode_cw]
  rfl

end

/-! ### The commands' answers and frames -/

/-- Settles O11: a command that is not valid is rejected, and the fault response's word has the status wire alone. -/
theorem invalidCommandOnlyAnswersFault : Obligations.InvalidCommandOnlyAnswersFault := fun _ _ hinvalid =>
  ⟨exec_of_invalid hinvalid, fun _ => by simp [encodeResponse, Response.invalid, Status.code, bitsNat]⟩

/-- Settles O12: the divider ends at the end of the padded dividend. -/
theorem crcEncAnswersCodeword : Obligations.CrcEncAnswersCodeword := by
  intro s a b hvalid d
  obtain ⟨ha, hb, -⟩ := (validCrcEnc_iff _ _ _).1 hvalid
  have hpad : padded a.value b.value = d := by simp only [padded, value_length, d]
  have hlen : d.length = a.len + b.len - 1 := by simp [d]; omega
  rw [exec_crcEnc_of_valid hvalid, hpad, divide_eq (by rw [value_length]; omega), hlen]
  exact ⟨_, rfl⟩

/-- R102's verdict as a test for `zeros(W)`. -/
theorem verifyFlag_mod2div {d k : BitString} (hk : 2 ≤ k.length) (h : k.length ≤ d.length) :
    verifyFlag (mod2div d k) = decide (mod2div d k = zeros (k.length - 1)) := by
  rw [Bool.eq_iff_iff, decide_eq_true_eq]
  exact crcVfy_flag_iff hk h

/-- Settles O13: the divider ends at the end of the codeword. -/
theorem crcVfyAnswersVerdict : Obligations.CrcVfyAnswersVerdict := by
  intro s a b hvalid
  obtain ⟨hb, hle, -⟩ := (validCrcVfy_iff _ _ _).1 hvalid
  have hflag := verifyFlag_mod2div (d := a.value) (k := b.value) (by simpa using hb) (by simpa using hle)
  rw [value_length] at hflag
  rw [exec_crcVfy_of_valid hvalid, divide_eq (by simpa using hle), value_length, Response.crcVfy, hflag]
  exact ⟨_, rfl⟩

/-- Settles O25: by linearity the last `W` bits of the dividend split off, and what is left is `CRC_ENC`'s dividend. -/
theorem bareRemainderFromCrcEnc : Obligations.BareRemainderFromCrcEnc := by
  intro s d k r hk hkd hcap hr
  obtain ⟨p, t, rfl, ht⟩ : ∃ p t : BitString, p ++ t = d ∧ t.length = k.length - 1 :=
    ⟨d.take (d.length - (k.length - 1)), d.drop (d.length - (k.length - 1)), List.take_append_drop _ _, by simp; omega⟩
  have hup : (p ++ t).length - (k.length - 1) = p.length := by simp [ht]
  have hp : 1 ≤ p.length := by omega
  have hvalid : validCrcEnc s.cap (Operand.ofBits p).len (Operand.ofBits k).len = true := by
    refine (validCrcEnc_iff _ _ _).2 ⟨hp, hk, Capacity.admits_of_le ?_ hcap⟩
    simp only [ofBits_len, List.length_append]
    omega
  rw [hup, sub_append_left, answers_iff, replyTo_crcEnc_of_valid hvalid, value_ofBits, value_ofBits] at hr
  rw [hup, sub_append_right, ← hr]
  exact mod2div_append hk ht hp

/-- Settles O26, from the latches after an encode. -/
theorem hamEncAnswersCodeword : Obligations.HamEncAnswersCodeword := by
  intro s a b hvalid
  obtain ⟨hn, -⟩ := (validHamEnc_iff _ _).1 hvalid
  refine ⟨by simp, ?_⟩
  rw [exec_hamEnc_of_valid hvalid, encode_eq s.ham (by simpa using hn), value_length]
  exact ⟨_, rfl⟩

/-- R131's three ways, of which two leave the word unchanged. -/
theorem correctAt_eq (cw : BitString) (e : Nat) :
    correctAt cw e = if 1 ≤ e ∧ e ≤ cw.length then flipAt cw e else cw := by
  unfold correctAt
  by_cases h0 : e = 0
  · simp [h0]
  · simp [h0, Nat.one_le_iff_ne_zero]

/-- Settles O27, from the latches after the checks. -/
theorem hamDecAnswersCorrection : Obligations.HamDecAnswersCorrection := by
  intro s a b hvalid e
  obtain ⟨hm, -⟩ := (validHamDec_iff _ _).1 hvalid
  rw [exec_hamDec_of_valid hvalid, decode_eq s.ham (by simpa using hm), Response.hamDec, correctAt_eq, value_length]
  exact ⟨_, rfl⟩

/-- Settles O34: the check of the finished codeword is even, so its parity bit is the XOR of the others. -/
theorem parityBitIsXorOfItsGroup : Obligations.ParityBitIsXorOfItsGroup := by
  intro data i hn hi cw
  have hlen : cw.length = data.length + rEnc data.length := hamCodeword_length data
  have hinside : 2 ^ i ≤ cw.length := hlen ▸ (two_pow_lt_of_lt_rEnc hn hi).le
  have heven : xorAt cw (cover (2 ^ i) cw.length) = false := hlen ▸ xorAt_encode_cw .reset data hn hi
  rw [xorAt_cover_eq cw hinside] at heven
  exact (bne_eq_false_iff_eq.1 heven).symm

/-! ### Statelessness -/

/-- R20: of the state only the capacity takes part in the answer. -/
theorem replyTo_congr_cap {s t : State} (hcap : t.cap = s.cap) (i : Instr) : t.replyTo i = s.replyTo i := by
  cases i with
  | crcEnc a b => simp only [State.replyTo, hcap]
  | crcVfy a b => simp only [State.replyTo, hcap]
  | hamEnc a b => simp only [State.replyTo, hcap, encode_cw]
  | hamDec a b => simp only [State.replyTo, hcap, decode_cw, decode_errAcc]

theorem replyTo_eq_responseOf (s : State) (i : Instr) : s.replyTo i = responseOf s.cap i :=
  (replyTo_congr_cap (State.resetWith_cap s.cap).symm i).trans (responseOf_eq_replyTo s.cap i).symm

/-- Settles O50: the answer is `replyTo`, which the capacity and the command determine. -/
theorem responseDependsOnCommandAlone : Obligations.ResponseDependsOnCommandAlone := fun s i =>
  (answers_iff s i _).2 (replyTo_eq_responseOf s i)

end Sys2Proof.Machine

/-! PROOFS. The serial core (10_state.md R34, R35; 70_reset_and_hazards.md R179): micro-steps of one loop at a time,
chained into whole algorithms, give exactly what `exec` gives. -/

namespace Sys2Proof.Machine

/-! ### Runs of a BUSY core -/

/-- `n` micro-steps lead from `s` to `t`, and the core is BUSY before each of them. -/
structure BusyRun (n : Nat) (s t : State) : Prop where
  work_eq : work n s = t
  busy : ∀ k < n, (work k s).phase = .busy

theorem BusyRun.refl (s : State) : BusyRun 0 s s := ⟨rfl, fun _ hk => absurd hk (Nat.not_lt_zero _)⟩

theorem BusyRun.single {s t : State} (hphase : s.phase = .busy) (h : microStep s = t) : BusyRun 1 s t := by
  refine ⟨h, fun k hk => ?_⟩
  obtain rfl : k = 0 := by omega
  exact hphase

theorem BusyRun.trans {m n : Nat} {s t u : State} (h : BusyRun m s t) (g : BusyRun n t u) : BusyRun (m + n) s u := by
  refine ⟨by rw [work_add, h.work_eq, g.work_eq], fun k hk => ?_⟩
  by_cases hkm : k < m
  · exact h.busy k hkm
  · obtain ⟨l, rfl⟩ : ∃ l, k = m + l := ⟨k - m, by omega⟩
    rw [work_add, h.work_eq]
    exact g.busy l (by omega)

/-! ### States inside an algorithm -/

/-- A BUSY core in the divider's loop, with the divider's latches at `v`. -/
def State.dividing (s : State) (v : DivLatches) : State := { s with div := v, stage := .divide, phase := .busy }

/-- A BUSY core in the loop `st` of the Hamming unit, with that unit's latches at `h`. -/
def State.inLoop (s : State) (h : HamLatches) (st : Stage) : State := { s with ham := h, stage := st, phase := .busy }

/-! ### One micro-step of each loop -/

section
variable (s : State) (h : HamLatches) (v : DivLatches)

theorem microStep_dividing_of_lt (hpick : v.pick < v.divd.length) :
    microStep (s.dividing v) = s.dividing (v.iterate s.b.value) := if_pos hpick

theorem microStep_dividing_of_le (hpick : v.divd.length ≤ v.pick) :
    microStep (s.dividing v) = { s with div := v }.answer (s.dividing v).divideResponse := if_neg (not_lt.2 hpick)

/-- A search step is the increment; which loop comes next is `settleSearch`'s to say. -/
theorem microStep_search :
    microStep (s.inLoop h .search) = (s.inLoop { h with r := h.r + 1 } .search).settleSearch := rfl

theorem microStep_place_of_lt {pos : Nat} (hpos : pos < s.a.len + h.r) :
    microStep (s.inLoop h (.place pos)) = s.inLoop (h.placeAt s.a.value pos) (.place (pos + 1)) :=
  congrArg (s.inLoop (h.placeAt s.a.value pos)) (if_pos hpos)

theorem microStep_place_of_le {pos : Nat} (hpos : s.a.len + h.r ≤ pos) :
    microStep (s.inLoop h (.place pos)) = s.inLoop (h.placeAt s.a.value pos) (.parity 0 1) :=
  congrArg (s.inLoop (h.placeAt s.a.value pos)) (if_neg (not_lt.2 hpos))

/-- The latches on entering visit `j` of group `i`: the first visit opens the group (R127, R130). -/
def HamLatches.entering (i : Nat) (h : HamLatches) (j : Nat) : HamLatches := if j = 1 then h.openGroup i else h

theorem microStep_parity_of_lt {i j : Nat} (hj : j < s.a.len + h.r) :
    microStep (s.inLoop h (.parity i j)) = s.inLoop ((h.entering i j).parityVisit i j) (.parity i (j + 1)) := if_pos hj

theorem microStep_check_of_lt {i j : Nat} (hj : j < s.a.len) :
    microStep (s.inLoop h (.check i j)) = s.inLoop ((h.entering i j).checkVisit i j) (.check i (j + 1)) := if_pos hj

@[simp] theorem entering_r (i j : Nat) : (h.entering i j).r = h.r := by unfold HamLatches.entering; split <;> rfl

/-- The last visit of a parity group closes it; the next group follows. -/
theorem microStep_parity_close {i j : Nat} (hj : s.a.len + h.r ≤ j) (hi : i + 1 < h.r) :
    microStep (s.inLoop h (.parity i j)) =
      s.inLoop (((h.entering i j).parityVisit i j).closeParity i) (.parity (i + 1) 1) :=
  (if_neg (not_lt.2 hj)).trans (if_pos ((entering_r h i j).symm ▸ hi))

/-- The last visit of the last parity group ends the encode. -/
theorem microStep_parity_end {i j : Nat} (hj : s.a.len + h.r ≤ j) (hi : h.r ≤ i + 1) :
    microStep (s.inLoop h (.parity i j)) =
      { s with ham := ((h.entering i j).parityVisit i j).closeParity i }.answer
        (.hamEnc (((h.entering i j).parityVisit i j).closeParity i).cw) :=
  (if_neg (not_lt.2 hj)).trans (if_neg (not_lt.2 ((entering_r h i j).symm ▸ hi)))

/-- The last visit of a check closes it; the next check follows, or the correction. -/
theorem microStep_check_close {i j : Nat} (hj : s.a.len ≤ j) :
    microStep (s.inLoop h (.check i j)) =
      s.inLoop (((h.entering i j).checkVisit i j).closeCheck i)
        (if i + 1 < h.r then .check (i + 1) 1 else .correct) := by
  rw [← entering_r h i j]
  exact if_neg (not_lt.2 hj)

theorem microStep_correct :
    microStep (s.inLoop h .correct) = { s with ham := h }.answer (.hamDec h.cw h.errAcc) := rfl

end

/-! ### Whole loops -/

/-- The divider's loop. -/
theorem busyRun_dividing (s : State) (v : DivLatches) (c : Nat) (hc : v.pick + c ≤ v.divd.length) :
    BusyRun c (s.dividing v) (s.dividing (DivLatches.iterations s.b.value c v)) := by
  induction c with
  | zero => exact .refl _
  | succ c ih =>
    rw [iterations_succ_last]
    refine (ih (by omega)).trans (.single rfl (microStep_dividing_of_lt s _ ?_))
    rw [iterations_pick, iterations_divd]
    omega

/-- A whole division: the loop, then the step that answers. -/
theorem busyRun_divide (s : State) {d k : BitString} (hk : s.b.value = k) (h : k.length ≤ d.length) :
    BusyRun (d.length - k.length + 1) (s.dividing (.load d k.length))
      ({ s with div := .divide d k }.answer (s.dividing (.divide d k)).divideResponse) := by
  subst hk
  refine (busyRun_dividing s (.load d s.b.value.length) _ ?_).trans (.single rfl (microStep_dividing_of_le s _ ?_))
  · simp only [load_pick, load_divd]; omega
  · simp only [iterations_pick, iterations_divd, load_pick, load_divd]; omega

/-- A loop of the Hamming unit over `n` values from `lo` upward: each takes the core through `cost` micro-steps and the
latches through `f`, and the last one leaves the loop. -/
theorem busyRun_loop {s : State} {f : HamLatches → Nat → HamLatches} {stage : Nat → Stage} {exit : HamLatches → State}
    {r cost n : Nat} (hr : ∀ g j, (f g j).r = g.r) (hn : 1 ≤ n) {lo : Nat}
    (hstep : ∀ g j, g.r = r → j + 1 < lo + n → BusyRun cost (s.inLoop g (stage j)) (s.inLoop (f g j) (stage (j + 1))))
    (hexit : ∀ g j, g.r = r → j + 1 = lo + n → BusyRun cost (s.inLoop g (stage j)) (exit (f g j)))
    {h : HamLatches} (hhr : h.r = r) :
    BusyRun (n * cost) (s.inLoop h (stage lo)) (exit ((List.range' lo n).foldl f h)) := by
  induction n, hn using Nat.le_induction generalizing lo h with
  | base => simpa using hexit h lo hhr rfl
  | succ n _ ih =>
    rw [List.range'_succ, List.foldl_cons, Nat.succ_mul, Nat.add_comm]
    refine (hstep h lo hhr (by omega)).trans (ih (fun g j hg hj => hstep g j hg (by omega))
      (fun g j hg hj => hexit g j hg (by omega)) ((hr h lo).trans hhr))

/-! ### The algorithms -/

/-- A group's walk is the one in which the first visit opens the group. -/
theorem foldl_entering (visit : HamLatches → Nat → HamLatches) (i : Nat) {m : Nat} (hm : 1 ≤ m) (h : HamLatches) :
    (positions m).foldl (fun g j => visit (g.entering i j) j) h = (positions m).foldl visit (h.openGroup i) := by
  induction m, hm using Nat.le_induction with
  | base => rfl
  | succ m hm ih =>
    have hlater : ∀ g : HamLatches, g.entering i (m + 1) = g := fun g => if_neg (by omega)
    simp only [positions_succ, List.foldl_append, List.foldl_cons, List.foldl_nil, ih, hlater]

section
variable {s : State} {h : HamLatches} {m : Nat}

/-- Encode step 2. -/
theorem busyRun_place (hm : s.a.len + h.r = m) (hpos : 1 ≤ m) :
    BusyRun m (s.inLoop h (.place 1))
      (s.inLoop ((positions m).foldl (HamLatches.placeAt s.a.value) h) (.parity 0 1)) := by
  have hloop := busyRun_loop (s := s) (f := HamLatches.placeAt s.a.value) (stage := .place)
    (exit := fun g => s.inLoop g (.parity 0 1)) (r := h.r) (cost := 1) (lo := 1)
    (fun g j => (placeAt_keeps _ g j).1) hpos
    (fun g j hg hj => .single rfl (microStep_place_of_lt s g (by omega)))
    (fun g j hg hj => .single rfl (microStep_place_of_le s g (by omega))) rfl
  rwa [Nat.mul_one] at hloop

/-- One parity group (R127), whichever way its last visit leaves it. -/
theorem busyRun_parityGroup {exit : HamLatches → State} {i : Nat} (hm : s.a.len + h.r = m) (hpos : 1 ≤ m)
    (hexit : ∀ g, g.r = h.r →
      microStep (s.inLoop g (.parity i m)) = exit (((g.entering i m).parityVisit i m).closeParity i)) :
    BusyRun m (s.inLoop h (.parity i 1)) (exit (h.parityGroup m i)) := by
  have hloop := busyRun_loop (s := s) (f := fun g j => (g.entering i j).parityVisit i j) (stage := .parity i)
    (exit := fun g => exit (g.closeParity i)) (r := h.r) (cost := 1) (lo := 1)
    (fun g j => entering_r g i j) hpos
    (fun g j hg hj => .single rfl (microStep_parity_of_lt s g (by omega)))
    (fun g j hg hj => .single rfl (by obtain rfl : j = m := by omega
                                      exact hexit g hg)) rfl
  rw [Nat.mul_one] at hloop
  rw [HamLatches.parityGroup, ← foldl_entering _ i hpos]
  exact hloop

/-- One check (R130); the next one follows, or the correction. -/
theorem busyRun_checkGroup {i : Nat} (hm : s.a.len = m) (hpos : 1 ≤ m) :
    BusyRun m (s.inLoop h (.check i 1))
      (s.inLoop (h.checkGroup m i) (if i + 1 < h.r then .check (i + 1) 1 else .correct)) := by
  have hloop := busyRun_loop (s := s) (f := fun g j => (g.entering i j).checkVisit i j) (stage := .check i)
    (exit := fun g => s.inLoop (g.closeCheck i) (if i + 1 < h.r then .check (i + 1) 1 else .correct)) (r := h.r)
    (cost := 1) (lo := 1) (fun g j => entering_r g i j) hpos
    (fun g j hg hj => .single rfl (microStep_check_of_lt s g (by omega)))
    (fun g j hg hj => .single rfl (by rw [← hg]; exact microStep_check_close s g (by omega))) rfl
  rw [Nat.mul_one] at hloop
  rw [HamLatches.checkGroup, ← foldl_entering _ i hpos]
  exact hloop

/-- Encode step 3, with the answer. -/
theorem busyRun_parity (hm : s.a.len + h.r = m) (hr : 1 ≤ h.r) :
    BusyRun (h.r * m) (s.inLoop h (.parity 0 1))
      ({ s with ham := h.parity h.r m }.answer (.hamEnc (h.parity h.r m).cw)) := by
  have hpos : 1 ≤ m := by omega
  have hloop := busyRun_loop (s := s) (f := HamLatches.parityGroup m) (stage := fun i => .parity i 1)
    (exit := fun g => { s with ham := g }.answer (.hamEnc g.cw)) (r := h.r) (cost := m) (lo := 0)
    (fun g i => by rw [parityGroup_eq hpos]) hr
    (fun g i hg hi => busyRun_parityGroup (exit := fun g => s.inLoop g (.parity (i + 1) 1)) (hg ▸ hm) hpos
      fun g' hg' => microStep_parity_close s g' (by omega) (by omega))
    (fun g i hg hi => busyRun_parityGroup (exit := fun g => { s with ham := g }.answer (.hamEnc g.cw)) (hg ▸ hm) hpos
      fun g' hg' => microStep_parity_end s g' (by omega) (by omega)) rfl
  rwa [← List.range_eq_range'] at hloop

/-- Decode step 2. -/
theorem busyRun_checks (hm : s.a.len = m) (hpos : 1 ≤ m) (hr : 1 ≤ h.r) :
    BusyRun (h.r * m) (s.inLoop h.openChecks (.check 0 1)) (s.inLoop (h.checks h.r m) .correct) := by
  have hloop := busyRun_loop (s := s) (f := HamLatches.checkGroup m) (stage := fun i => .check i 1)
    (exit := fun g => s.inLoop g .correct) (r := h.r) (cost := m) (lo := 0)
    (fun g i => by rw [checkGroup_eq hpos]) hr
    (fun g i hg hi => by
      have hnext := busyRun_checkGroup (h := g) (i := i) hm hpos
      rwa [if_pos (by omega)] at hnext)
    (fun g i hg hi => by
      have hlast := busyRun_checkGroup (h := g) (i := i) hm hpos
      rwa [if_neg (by omega)] at hlast) (h := h.openChecks) rfl
  rwa [← List.range_eq_range'] at hloop

end

/-! ### The searches -/

/-- The test of the search under way: the encoder's (R120) or the decoder's (R121). -/
def State.short (s : State) (r : Nat) : Bool := if s.op = 0b10#2 then encShort s.a.len r else decShort s.a.len r

theorem settleSearch_of_short {s : State} (h : s.short s.ham.r = true) :
    s.settleSearch = { s with stage := .search } := by
  unfold State.short at h
  unfold State.settleSearch
  split at h
  · next hop => rw [if_pos hop, if_pos h]
  · next hop => rw [if_neg hop, if_pos h]

/-- `c` increments, each from a value the test still finds too small. -/
theorem busyRun_search (s : State) (h : HamLatches) (r c : Nat) (hshort : ∀ x, r ≤ x → x < r + c → s.short x = true) :
    BusyRun c (s.inLoop { h with r := r } .search).settleSearch
      (s.inLoop { h with r := r + c } .search).settleSearch := by
  induction c with
  | zero => exact .refl _
  | succ c ih =>
    have hlast : (s.inLoop { h with r := r + c } .search).settleSearch = s.inLoop { h with r := r + c } .search :=
      settleSearch_of_short (hshort (r + c) (by omega) (by omega))
    have hmore := ih fun x h1 h2 => hshort x h1 (by omega)
    rw [hlast] at hmore
    exact hmore.trans (.single rfl (microStep_search s _))

/-- The search ends at `r_enc(n)` and placement opens. -/
theorem busyRun_search_enc {s : State} (h : HamLatches) (hop : s.op = 0b10#2) (hn : 1 ≤ s.a.len) :
    BusyRun (rEnc s.a.len - 1) (s.inLoop { h with r := 1 } .search).settleSearch
      (s.inLoop ({ h with r := rEnc s.a.len }.openPlacement (s.a.len + rEnc s.a.len)) (.place 1)) := by
  have htwo := two_le_rEnc hn
  have hrun := busyRun_search s h 1 (rEnc s.a.len - 1) fun x h1 h2 => by
    rw [State.short, if_pos hop, ← Bool.not_eq_false, encShort_eq_false_iff, ← rEnc_le_iff h1]
    omega
  have hend : encShort s.a.len (rEnc s.a.len) = false := (encShort_eq_false_iff _ _).2 (rEnc_fits hn)
  rw [Nat.add_sub_cancel' (by omega)] at hrun
  have hsettle : (s.inLoop { h with r := rEnc s.a.len } .search).settleSearch =
      s.inLoop ({ h with r := rEnc s.a.len }.openPlacement (s.a.len + rEnc s.a.len)) (.place 1) :=
    (if_pos hop).trans (if_neg (Bool.eq_false_iff.1 hend))
  rwa [hsettle] at hrun

/-- The search ends at `r_dec(m)` and the checks open. -/
theorem busyRun_search_dec {s : State} (h : HamLatches) (hop : s.op ≠ 0b10#2) :
    BusyRun (rDec s.a.len - 1) (s.inLoop { h with r := 1 } .search).settleSearch
      (s.inLoop { h with r := rDec s.a.len }.openChecks (.check 0 1)) := by
  have hone := one_le_rDec s.a.len
  have hrun := busyRun_search s h 1 (rDec s.a.len - 1) fun x h1 h2 => by
    rw [State.short, if_neg hop, ← Bool.not_eq_false, decShort_eq_false_iff, ← rDec_le_iff h1]
    omega
  have hend : decShort s.a.len (rDec s.a.len) = false := (decShort_eq_false_iff _ _).2 (lt_two_pow_rDec _)
  rw [Nat.add_sub_cancel' hone] at hrun
  have hsettle : (s.inLoop { h with r := rDec s.a.len } .search).settleSearch =
      s.inLoop { h with r := rDec s.a.len }.openChecks (.check 0 1) :=
    (if_neg hop).trans (if_neg (Bool.eq_false_iff.1 hend))
  rwa [hsettle] at hrun

/-! ### Whole commands -/

theorem accept_of_valid {i : Instr} {s : State} (h : validInstr s.cap i = true) :
    accept i s = (s.captureInstr i).launch i := by
  rcases accept_cases i s with ⟨hinvalid, -⟩ | ⟨-, haccept, -⟩
  · simp [invalidInstr_eq_not_validInstr, h] at hinvalid
  · exact haccept

section
variable {s : State} {a b : Operand}

theorem busyRun_crcEnc (h : validCrcEnc s.cap a.len b.len = true) :
    BusyRun (referenceSteps (.crcEnc a b)) ((s.captureInstr (.crcEnc a b)).launch (.crcEnc a b))
      ({ s.captureInstr (.crcEnc a b) with div := .divide (padded a.value b.value) b.value }.answer
        (.crcEnc a.value (mod2div (padded a.value b.value) b.value))) := by
  obtain ⟨ha, hb, -⟩ := (validCrcEnc_iff _ _ _).1 h
  have hrun := busyRun_divide (s.captureInstr (.crcEnc a b)) (d := padded a.value b.value) (k := b.value) rfl
    (by simp [padded]; omega)
  have hsteps : (padded a.value b.value).length - b.value.length + 1 = a.len := by simp [padded]; omega
  rw [hsteps] at hrun
  exact hrun

theorem busyRun_crcVfy (h : validCrcVfy s.cap a.len b.len = true) :
    BusyRun (referenceSteps (.crcVfy a b)) ((s.captureInstr (.crcVfy a b)).launch (.crcVfy a b))
      ({ s.captureInstr (.crcVfy a b) with div := .divide a.value b.value }.answer
        (.crcVfy (mod2div a.value b.value))) := by
  obtain ⟨-, hle, -⟩ := (validCrcVfy_iff _ _ _).1 h
  have hrun := busyRun_divide (s.captureInstr (.crcVfy a b)) (d := a.value) (k := b.value) rfl (by simpa using hle)
  have hsteps : a.value.length - b.value.length + 1 = a.len - b.len + 1 := by simp
  rw [hsteps] at hrun
  exact hrun

theorem place_r (data : BitString) {m : Nat} (hm : 1 ≤ m) (h : HamLatches) : (h.place data m).r = h.r := by
  rw [HamLatches.place, foldl_placeAt_eq _ hm]
  rfl

/-- The search, placement and parity, in the order of R128. -/
theorem busyRun_hamEnc (h : validHamEnc s.cap a.len = true) :
    BusyRun (referenceSteps (.hamEnc a b)) ((s.captureInstr (.hamEnc a b)).launch (.hamEnc a b))
      ({ s.captureInstr (.hamEnc a b) with ham := s.ham.encode a.value }.answer (.hamEnc (hamCodeword a.value))) := by
  obtain ⟨hn, -⟩ := (validHamEnc_iff _ _).1 h
  have htwo := two_le_rEnc hn
  have hm : 1 ≤ a.len + rEnc a.len := by omega
  have hr : (HamLatches.place a.value (a.len + rEnc a.len) { s.ham with r := rEnc a.len }).r = rEnc a.len :=
    place_r a.value hm _
  have hsearch := busyRun_search_enc (s := s.captureInstr (.hamEnc a b)) s.ham rfl hn
  have hplace := busyRun_place (s := s.captureInstr (.hamEnc a b)) (m := a.len + rEnc a.len)
    (h := { s.ham with r := rEnc a.len }.openPlacement (a.len + rEnc a.len)) rfl hm
  have hparity := busyRun_parity (s := s.captureInstr (.hamEnc a b)) (m := a.len + rEnc a.len)
    (h := HamLatches.place a.value (a.len + rEnc a.len) { s.ham with r := rEnc a.len }) (by rw [hr]; rfl)
    (by rw [hr]; omega)
  have hencode : (HamLatches.place a.value (a.len + rEnc a.len) { s.ham with r := rEnc a.len }).parity (rEnc a.len)
      (a.len + rEnc a.len) = s.ham.encode a.value := by
    rw [HamLatches.encode, value_length]
  rw [hr, hencode, encode_cw] at hparity
  exact (hsearch.trans hplace).trans hparity

/-- The search, the checks and the correction, in the order of R132. -/
theorem busyRun_hamDec (h : validHamDec s.cap a.len = true) :
    BusyRun (referenceSteps (.hamDec a b)) ((s.captureInstr (.hamDec a b)).launch (.hamDec a b))
      ({ s.captureInstr (.hamDec a b) with ham := s.ham.decode a.value }.answer
        (.hamDec a.value (syndrome a.value))) := by
  obtain ⟨hm, -⟩ := (validHamDec_iff _ _).1 h
  have hop : (0b11#2 : BitVec 2) ≠ 0b10#2 := by decide
  have hsearch := busyRun_search_dec (s := s.captureInstr (.hamDec a b)) { s.ham with cw := a.value } hop
  have hchecks := busyRun_checks (s := s.captureInstr (.hamDec a b)) (m := a.len)
    (h := { s.ham with cw := a.value, r := rDec a.len }) rfl hm (one_le_rDec _)
  have hcorrect := microStep_correct (s.captureInstr (.hamDec a b)) (s.ham.decode a.value)
  have hdecode : HamLatches.checks (rDec a.len) a.len { s.ham with cw := a.value, r := rDec a.len } =
      s.ham.decode a.value := by
    rw [HamLatches.decode, value_length]
  rw [hdecode] at hchecks
  rw [decode_cw, decode_errAcc] at hcorrect
  exact (hsearch.trans hchecks).trans (.single rfl hcorrect)

end

/-- From acceptance of a valid command to the state `exec` gives, BUSY until then. -/
theorem busyRun_exec {i : Instr} {s : State} (hvalid : validInstr s.cap i = true) :
    ∃ t, exec i s = .next t ∧ BusyRun (referenceSteps i) (accept i s) t := by
  rw [accept_of_valid hvalid]
  cases i with
  | crcEnc a b => exact ⟨_, exec_crcEnc_of_valid hvalid, busyRun_crcEnc hvalid⟩
  | crcVfy a b => exact ⟨_, exec_crcVfy_of_valid hvalid, busyRun_crcVfy hvalid⟩
  | hamEnc a b => exact ⟨_, exec_hamEnc_of_valid hvalid, busyRun_hamEnc hvalid⟩
  | hamDec a b => exact ⟨_, exec_hamDec_of_valid hvalid, busyRun_hamDec hvalid⟩

/-- Settles O51: the loops of the command's algorithm, one after the other, from acceptance to the answer. -/
theorem microStepsComputeExec : Obligations.MicroStepsComputeExec := by
  intro i s hvalid
  obtain ⟨t, hexec, hrun⟩ := busyRun_exec hvalid
  exact ⟨hexec.trans (congrArg _ hrun.work_eq.symm), hrun.busy⟩

end Sys2Proof.Machine

/-! PROOFS. The handshake (10_state.md R34, R36; 20_memory.md R50; 70_reset_and_hazards.md R170, R174, R175, R180): what
a step does in each phase, which command is captured, and that the wires have no effect outside IDLE. -/

namespace Sys2Proof.Machine

/-! ### The step, phase by phase -/

section
variable {s : State}

theorem step_of_rst (hrst : s.now.rst = true) : step s = .next (onReset s) := by simp only [step, hrst, if_true]

theorem step_of_idle (hrst : s.now.rst = false) (hphase : s.phase = .idle) : step s = onIdle s := by
  simp [step, hrst, hphase]

theorem step_of_busy (hrst : s.now.rst = false) (hphase : s.phase = .busy) : step s = onBusy s := by
  simp [step, hrst, hphase]

theorem step_of_done (hrst : s.now.rst = false) (hphase : s.phase = .done) : step s = .next (onDone s) := by
  simp [step, hrst, hphase]

end

/-! ### The command captured -/

section
variable {s : State} {c : CmdWires}

theorem mem_candidates {d : CmdWires} : d ∈ s.candidates c ↔ d = c ∨ d ∈ s.presented := by
  unfold State.candidates
  split
  · next hmem => exact ⟨.inr, fun h => h.elim (· ▸ hmem) id⟩
  · simp [or_comm]

theorem choose_mem_candidates (s : State) (c : CmdWires) : s.choose c ∈ s.candidates c := by
  have hpos : 0 < (s.candidates c).length := List.length_pos_of_mem (mem_candidates.2 (.inl rfl))
  unfold State.choose
  split
  · next x hx => exact hx ▸ List.mem_singleton_self x
  · rw [List.getD_eq_getElem _ _ (Nat.mod_lt _ hpos)]
    exact List.getElem_mem _

/-- R174: where the host has held its wires there is one candidate. -/
theorem candidates_of_held (hnodup : s.presented.Nodup) (hheld : ∀ d ∈ s.presented, d = c) : s.candidates c = [c] := by
  unfold State.candidates
  split
  · next hmem =>
    exact List.perm_singleton.1 ((List.perm_ext_iff_of_nodup hnodup (List.nodup_singleton c)).2 fun d =>
      ⟨fun h => List.mem_singleton.2 (hheld d h), fun h => List.mem_singleton.1 h ▸ hmem⟩)
  · next hmem =>
    rw [List.eq_nil_iff_forall_not_mem.2 fun d hd => hmem (hheld d hd ▸ hd), List.nil_append]

theorem choose_of_held (hnodup : s.presented.Nodup) (hheld : ∀ d ∈ s.presented, d = c) : s.choose c = c := by
  simp only [State.choose, candidates_of_held hnodup hheld]

theorem drawsAfter_of_held (hnodup : s.presented.Nodup) (hheld : ∀ d ∈ s.presented, d = c) :
    s.drawsAfter c = s.draws := by
  simp only [State.drawsAfter, candidates_of_held hnodup hheld]

theorem wiresHeld_iff (s : State) : s.wiresHeld = true ↔ ∀ d ∈ s.presented, d = s.now.cmd := by simp [State.wiresHeld]

/-- No free value is used up on held wires. -/
theorem opened_of_held (hnodup : s.presented.Nodup) (hheld : s.wiresHeld = true) :
    s.opened = { s with inputs := s.inputs.tail, presented := [] } := by
  unfold State.opened
  rw [drawsAfter_of_held hnodup ((wiresHeld_iff s).1 hheld)]
  rfl

end

/-- Settles O49: the choice is among the candidates, and held wires leave one. -/
theorem captureTakesAPresentedCommand : Obligations.CaptureTakesAPresentedCommand := fun s c =>
  ⟨mem_candidates.1 (choose_mem_candidates s c), choose_of_held⟩

/-- Settles O43: on held wires the command chosen is the one presented. -/
theorem stepRunsPresentedCommand : Obligations.StepRunsPresentedCommand := by
  intro s hphase hrst hvalid hpace hheld hnodup
  rw [step_of_idle hrst hphase, ← opened_of_held hnodup hheld]
  conv_rhs => rw [← choose_of_held hnodup ((wiresHeld_iff s).1 hheld)]
  simp only [onIdle, hvalid, hpace, if_true]

theorem decodeWires_wordFields_of_decodeTableWord {nbits w : Nat} {i : Instr} (h : decodeTableWord nbits w = some i) :
    decodeWires (wordFields tableCap (tableWord nbits w)) = i := by
  unfold decodeTableWord at h
  unfold decodeWord at h
  split at h
  · simpa [Except.toOption] using h
  · simp [Except.toOption] at h

/-- Settles O44: a word on fresh wires is a held command. -/
theorem stepRunsTableWord : Obligations.StepRunsTableWord := by
  intro s nbits w i hword
  have hrun := stepRunsPresentedCommand (s.withFetchWord nbits w) rfl rfl rfl rfl rfl List.nodup_nil
  rw [← decodeWires_wordFields_of_decodeTableWord hword]
  exact hrun

/-- Settles O4: each word against its fields' values. -/
theorem vectorWordsDecode : Obligations.VectorWordsDecode := by
  unfold Obligations.VectorWordsDecode
  decide

/-! ### Acceptance -/

theorem accept_of_invalid {i : Instr} {s : State} (h : validInstr s.cap i = false) :
    accept i s = (s.captureInstr i).reject := by
  rcases accept_cases i s with ⟨-, haccept⟩ | ⟨hvalid, -⟩
  · exact haccept
  · simp [invalidInstr_eq_not_validInstr, h] at hvalid

/-- Acceptance writes the command latches and nothing else of what a command leaves alone. -/
theorem accept_keeps (i : Instr) (s : State) : SameCommand (s.captureInstr i) (accept i s) := by
  rcases accept_cases i s with ⟨-, h⟩ | ⟨-, h, -⟩
  · rw [h]
    exact ⟨rfl, rfl, rfl, rfl, rfl, rfl, rfl⟩
  · rw [h]
    obtain ⟨hsame, -⟩ := launch_keeps i (s.captureInstr i)
    exact hsame

@[simp] theorem accept_cap (i : Instr) (s : State) : (accept i s).cap = s.cap := (accept_keeps i s).cap

theorem onIdle_of_ticks {s : State} {k : Nat} (hvalid : s.now.cmdValid = true) (hpace : s.now.pace = .ticks k) :
    onIdle s = .next (work k (accept (decodeWires (s.choose s.now.cmd)) s.opened)) := by
  simp only [onIdle, hvalid, hpace, if_true]

/-- The checks open on the word that was captured. -/
theorem settleSearch_cw_of_op_ne {s : State} (hop : s.op ≠ 0b10#2) : s.settleSearch.ham.cw = s.ham.cw := by
  unfold State.settleSearch
  rw [if_neg hop]
  split <;> rfl

/-- R83, R120, R121: the latches of the addressed unit that the start of a command sets, and the other unit's. -/
theorem launch_latches (i : Instr) (s : State) :
    match i with
    | .crcEnc a b => (s.launch i).div = .load (a.value ++ zeros (b.len - 1)) b.len ∧ (s.launch i).ham = s.ham
    | .crcVfy a b => (s.launch i).div = .load a.value b.len ∧ (s.launch i).ham = s.ham
    | .hamEnc _ _ => (s.launch i).div = s.div ∧ (s.launch i).ham.r = 1
    | .hamDec a _ => (s.launch i).div = s.div ∧ (s.launch i).ham.r = 1 ∧
        (s.op ≠ 0b10#2 → (s.launch i).ham.cw = a.value) := by
  cases i with
  | crcEnc a b => simp [State.launch, padded]
  | crcVfy a b => simp [State.launch]
  | hamEnc a b =>
    obtain ⟨-, -, hdiv, -, hr⟩ := settleSearch_keeps { s with ham := { s.ham with r := 1 }, phase := .busy }
    exact ⟨hdiv, hr⟩
  | hamDec a b =>
    obtain ⟨-, -, hdiv, -, hr⟩ :=
      settleSearch_keeps { s with ham := { s.ham with r := 1, cw := a.value }, phase := .busy }
    exact ⟨hdiv, hr, fun hop => settleSearch_cw_of_op_ne hop⟩

/-- Settles O45: held wires have the presented command captured, and no micro-step follows. -/
theorem acceptCapturesAndChecks : Obligations.AcceptCapturesAndChecks := by
  intro s i hphase hrst hvalid hpace hheld hnodup hi
  have hwires : encodeWires i = s.now.cmd := hi ▸ encodeWires_decodeWires _
  have hstep : step s = .next (accept i s.opened) := by
    rw [step_of_idle hrst hphase, onIdle_of_ticks hvalid hpace,
      choose_of_held hnodup ((wiresHeld_iff s).1 hheld), ← hi, work_zero]
  have hkeeps := accept_keeps i s.opened
  refine ⟨(State.cmdReady_eq_true_iff s).2 ⟨hphase, hrst⟩, accept i s.opened, hstep, hkeeps.op.trans ?_,
    hkeeps.a.trans ?_, hkeeps.b.trans ?_, fun hok => ?_, fun hbad => ?_⟩
  · exact congrArg CmdWires.op hwires
  · exact congrArg CmdWires.a hwires
  · exact congrArg CmdWires.b hwires
  · have hok' : validInstr s.opened.cap i = true := hok
    rw [accept_of_valid hok']
    obtain ⟨-, hbusy, hrsp⟩ := launch_keeps i (s.opened.captureInstr i)
    refine ⟨hbusy, hrsp, ?_⟩
    have hlatches := launch_latches i (s.opened.captureInstr i)
    cases i with
    | crcEnc a b => exact hlatches
    | crcVfy a b => exact hlatches
    | hamEnc a b => exact hlatches
    | hamDec a b =>
      obtain ⟨hdiv, hr, hcw⟩ := hlatches
      have hop : (0b11#2 : BitVec 2) ≠ 0b10#2 := by decide
      exact ⟨hdiv, hr, hcw hop⟩
  · have hbad' : validInstr s.opened.cap i = false := hbad
    rw [accept_of_invalid hbad']
    exact ⟨rfl, rfl, rfl, rfl⟩

/-! ### Reset, and the response port -/

/-- Settles O42: with `rst` asserted both outputs are 0, so nothing is accepted or taken, and the step is the reset. -/
theorem resetOverridesEverything : Obligations.ResetOverridesEverything := by
  intro s hrst
  have hready : s.cmdReady = false := by simp [State.cmdReady, hrst]
  have hoffered : s.rspValid = false := by simp [State.rspValid, hrst]
  refine ⟨hready, hoffered, ?_, ?_, onReset s, step_of_rst hrst, rfl, rfl, rfl⟩
  · simp [State.acceptedNow, hready]
  · simp [State.takenNow, hoffered]

theorem rspValid_of_not_rst {s : State} (hrst : s.now.rst = false) : s.rspValid = decide (s.phase = .done) := by
  simp [State.rspValid, hrst]

theorem onDone_of_rspReady {s : State} (h : s.now.rspReady = true) : onDone s = s.notePresented.consume.take := by
  simp only [onDone, h, if_true]

/-- Settles O48: out of reset a response is offered exactly in DONE. -/
theorem takeReturnsToIdle : Obligations.TakeReturnsToIdle := by
  intro s hrst
  have hoffered := rspValid_of_not_rst hrst
  refine ⟨by simp [State.rspPort, hoffered], fun hphase => by simp [hoffered, hphase], fun hphase hready => ⟨?_, ?_⟩⟩
  · simp [State.takenNow, hoffered, hphase, hready]
  · rw [step_of_done hrst hphase, onDone_of_rspReady hready]
    exact ⟨_, rfl⟩

end Sys2Proof.Machine

/-! PROOFS. The host's record and the command's progress: the micro-steps read neither the schedule nor what was
presented, so a command in flight goes on as it would on any other (10_state.md section 6; 70_reset_and_hazards.md R175,
R180). -/

namespace Sys2Proof.Machine

/-! ### `exec` as acceptance and micro-steps -/

/-- Every command, valid or not: what `exec` gives is where the reference count of micro-steps leads from acceptance. An
invalid one is answered by acceptance itself. -/
theorem exec_eq_work_accept (i : Instr) (s : State) : exec i s = .next (work (referenceSteps i) (accept i s)) := by
  cases hvalid : validInstr s.cap i with
  | true => exact (microStepsComputeExec i s hvalid).1
  | false =>
    have hdone : (s.captureInstr i).reject.phase ≠ .busy := by simp
    rw [exec_of_invalid hvalid, accept_of_invalid hvalid, work_of_not_busy _ _ hdone]

/-! ### The host's record -/

/-- `s` under another schedule and another record of what was presented. -/
def State.withHost (s : State) (inputs : List Tick) (presented : List CmdWires) (draws : Nat) : State :=
  { s with inputs := inputs, presented := presented, draws := draws }

section
variable (s : State) (l : List Tick) (p : List CmdWires) (d : Nat)

@[simp] theorem withHost_captured : (s.withHost l p d).captured = s.captured := rfl

theorem settleSearch_withHost : (s.withHost l p d).settleSearch = s.settleSearch.withHost l p d := by
  unfold State.settleSearch
  split <;> split <;> simp_all [State.withHost]

theorem launch_withHost (i : Instr) : (s.withHost l p d).launch i = (s.launch i).withHost l p d := by
  cases i with
  | crcEnc a b => rfl
  | crcVfy a b => rfl
  | hamEnc a b => exact settleSearch_withHost { s with ham := { s.ham with r := 1 }, phase := .busy } l p d
  | hamDec a b =>
    exact settleSearch_withHost { s with ham := { s.ham with r := 1, cw := a.value }, phase := .busy } l p d

theorem accept_withHost (i : Instr) : accept i (s.withHost l p d) = (accept i s).withHost l p d := by
  cases hvalid : validInstr s.cap i with
  | true =>
    have hvalid' : validInstr (s.withHost l p d).cap i = true := hvalid
    rw [accept_of_valid hvalid, accept_of_valid hvalid']
    exact launch_withHost (s.captureInstr i) l p d i
  | false =>
    have hvalid' : validInstr (s.withHost l p d).cap i = false := hvalid
    rw [accept_of_invalid hvalid, accept_of_invalid hvalid']
    rfl

/-- Inside a loop of the Hamming unit: each kind of micro-step is the same update on both sides. -/
theorem microStep_inLoop_withHost (h : HamLatches) (st : Stage) (hrest : st ≠ .rest) (hdivide : st ≠ .divide) :
    microStep ((s.withHost l p d).inLoop h st) = (microStep (s.inLoop h st)).withHost l p d := by
  cases st with
  | rest => exact absurd rfl hrest
  | divide => exact absurd rfl hdivide
  | search => rw [microStep_search, microStep_search, ← settleSearch_withHost]; rfl
  | place pos => rfl
  | parity i j =>
    by_cases hj : j < s.a.len + h.r
    · rw [microStep_parity_of_lt s h hj, microStep_parity_of_lt (s.withHost l p d) h hj]; rfl
    · have hj' : s.a.len + h.r ≤ j := not_lt.1 hj
      by_cases hi : i + 1 < h.r
      · rw [microStep_parity_close s h hj' hi, microStep_parity_close (s.withHost l p d) h hj' hi]; rfl
      · have hi' : h.r ≤ i + 1 := not_lt.1 hi
        rw [microStep_parity_end s h hj' hi', microStep_parity_end (s.withHost l p d) h hj' hi']; rfl
  | check i j =>
    by_cases hj : j < s.a.len
    · rw [microStep_check_of_lt s h hj, microStep_check_of_lt (s.withHost l p d) h hj]; rfl
    · have hj' : s.a.len ≤ j := not_lt.1 hj
      rw [microStep_check_close s h hj', microStep_check_close (s.withHost l p d) h hj']; rfl
  | correct => rfl

theorem microStep_dividing_withHost (v : DivLatches) :
    microStep ((s.withHost l p d).dividing v) = (microStep (s.dividing v)).withHost l p d := by
  by_cases hpick : v.pick < v.divd.length
  · rw [microStep_dividing_of_lt s v hpick, microStep_dividing_of_lt (s.withHost l p d) v hpick]; rfl
  · have hpick' : v.divd.length ≤ v.pick := not_lt.1 hpick
    rw [microStep_dividing_of_le s v hpick', microStep_dividing_of_le (s.withHost l p d) v hpick']; rfl

theorem inLoop_self {s : State} (hphase : s.phase = .busy) : s.inLoop s.ham s.stage = s := by
  cases s; cases hphase; rfl

theorem dividing_self {s : State} (hphase : s.phase = .busy) (hstage : s.stage = .divide) : s.dividing s.div = s := by
  cases s; cases hphase; cases hstage; rfl

theorem microStep_of_rest {s : State} (hphase : s.phase = .busy) (hstage : s.stage = .rest) :
    microStep s = accept s.captured s := by
  simp only [microStep, hphase, hstage]

theorem microStep_withHost : microStep (s.withHost l p d) = (microStep s).withHost l p d := by
  cases hphase : s.phase with
  | idle => rw [microStep_of_idle s hphase, microStep_of_idle (s.withHost l p d) hphase]
  | done => rw [microStep_of_done s hphase, microStep_of_done (s.withHost l p d) hphase]
  | busy =>
    by_cases hrest : s.stage = .rest
    · rw [microStep_of_rest hphase hrest, microStep_of_rest (s := s.withHost l p d) hphase hrest, withHost_captured,
        accept_withHost]
    · by_cases hdivide : s.stage = .divide
      · have hself : (s.withHost l p d).dividing s.div = s.withHost l p d := dividing_self hphase hdivide
        rw [← hself, microStep_dividing_withHost, dividing_self hphase hdivide]
      · have hself : (s.withHost l p d).inLoop s.ham s.stage = s.withHost l p d := inLoop_self hphase
        rw [← hself, microStep_inLoop_withHost s l p d _ _ hrest hdivide, inLoop_self hphase]

theorem work_withHost (k : Nat) : work k (s.withHost l p d) = (work k s).withHost l p d := by
  induction k generalizing s with
  | zero => rfl
  | succ k ih => rw [work_succ, work_succ, microStep_withHost, ih]

theorem exec_withHost (i : Instr) {t : State} (h : exec i s = .next t) :
    exec i (s.withHost l p d) = .next (t.withHost l p d) := by
  rw [exec_eq_work_accept] at h
  cases h
  rw [exec_eq_work_accept, accept_withHost, work_withHost]

end

/-! ### The wires outside IDLE -/

theorem exec_keeps {i : Instr} {s t : State} (h : exec i s = .next t) : SameCommand (s.captureInstr i) t := by
  rw [exec_eq_work_accept] at h
  cases h
  exact (accept_keeps i s).trans (work_keeps _ _)

theorem SameCommand.withHost_eq {s t : State} (h : SameCommand s t) (p : List CmdWires) :
    t.withHost s.inputs p s.draws = { t with presented := p } := by
  rw [← h.inputs, ← h.draws]
  rfl

theorem exec_withPresented {i : Instr} {s t : State} (h : exec i s = .next t) (p : List CmdWires) :
    exec i { s with presented := p } = .next { t with presented := p } :=
  (exec_withHost s s.inputs p s.draws i h).trans (congrArg _ ((exec_keeps h).withHost_eq p))

theorem work_withPresented (k : Nat) (s : State) (p : List CmdWires) :
    work k { s with presented := p } = { work k s with presented := p } :=
  (work_withHost s s.inputs p s.draws k).trans ((work_keeps k s).withHost_eq p)

/-- `s` in a move `n` with other command wires. -/
def State.withWires (s : State) (n : Tick) (rest : List Tick) (v : Bool) (c : CmdWires) : State :=
  { s with inputs := { n with cmdValid := v, cmd := c } :: rest }

section
variable {s t : State} {n : Tick} {rest : List Tick} (hin : s.inputs = n :: rest) (v : Bool) (c : CmdWires)
include hin

/-- Once the move is used up, the states differ in the record of what was presented alone. -/
theorem consume_withWires :
    (s.withWires n rest v c).notePresented.consume =
      { s.notePresented.consume with presented := (s.withWires n rest v c).notePresented.presented } := by
  simp [State.consume, State.notePresented, State.withWires, hin]

theorem onBusy_withWires (h : onBusy s = .next t) :
    ∃ p, onBusy (s.withWires n rest v c) = .next { t with presented := p } := by
  have hnow := now_of_inputs s n rest hin
  refine ⟨(s.withWires n rest v c).notePresented.presented, ?_⟩
  have hpace : (s.withWires n rest v c).now.pace = s.now.pace := hnow ▸ rfl
  unfold onBusy at h ⊢
  rw [hpace, consume_withWires hin]
  split at h
  · exact exec_withPresented h _
  · cases h
    rw [work_withPresented]

theorem onDone_withWires : ∃ p, onDone (s.withWires n rest v c) = { onDone s with presented := p } := by
  have hnow := now_of_inputs s n rest hin
  refine ⟨(s.withWires n rest v c).notePresented.presented, ?_⟩
  have hready : (s.withWires n rest v c).now.rspReady = s.now.rspReady := hnow ▸ rfl
  unfold onDone
  rw [hready, consume_withWires hin]
  split <;> rfl

end

/-- Settles O46: the move's other wires are as they were, and what was presented is only recorded. -/
theorem commandWiresIgnoredOutsideIdle : Obligations.CommandWiresIgnoredOutsideIdle := by
  intro s t n rest v c hphase hin hstep
  refine ⟨by simp [State.cmdReady, hphase], State.acceptedNow_of_phase_ne_idle hphase, ?_⟩
  have hrst' : (s.withWires n rest v c).now.rst = s.now.rst := now_of_inputs s n rest hin ▸ rfl
  change ∃ p, step (s.withWires n rest v c) = _
  rcases step_cases s with ⟨hrst, h⟩ | ⟨-, hidle, -⟩ | ⟨hrst, hbusy, h⟩ | ⟨hrst, hdone, h⟩
  · rw [step_of_rst (hrst'.trans hrst)]
    rw [h] at hstep
    cases hstep
    refine ⟨[], congrArg _ ?_⟩
    simp [onReset, State.consume, State.resetLatches, State.resetWith, State.withWires, hin]
  · exact absurd hidle hphase
  · rw [step_of_busy (hrst'.trans hrst) hbusy]
    exact onBusy_withWires hin v c (h ▸ hstep)
  · rw [step_of_done (hrst'.trans hrst) hdone]
    rw [h] at hstep
    cases hstep
    obtain ⟨p, hp⟩ := onDone_withWires hin v c
    exact ⟨p, congrArg _ hp⟩

/-! ### There is always a next state -/

/-- Settles O54: each part of a step answers a state and uses up the move. -/
theorem everyStepHasNextState : Obligations.EveryStepHasNextState := by
  intro s
  have hexec : ∀ (i : Instr) (u : State), u.cap = s.cap → u.inputs = s.inputs.tail →
      ∃ t, exec i u = .next t ∧ t.cap = s.cap ∧ t.inputs = s.inputs.tail := fun i u hcap hin =>
    have hkeeps := exec_keeps (exec_eq_work_accept i u)
    ⟨_, exec_eq_work_accept i u, hkeeps.cap.trans hcap, hkeeps.inputs.trans hin⟩
  rcases step_cases s with ⟨-, h⟩ | ⟨-, -, h⟩ | ⟨-, -, h⟩ | ⟨-, -, h⟩
  · exact ⟨_, h, rfl, rfl⟩
  · rw [h]
    rcases onIdle_cases s with ⟨-, hidle⟩ | ⟨-, -, hidle⟩ | ⟨-, k, -, hidle⟩
    · exact ⟨_, hidle, rfl, rfl⟩
    · rw [hidle]
      exact hexec _ _ rfl rfl
    · have hkeeps := (accept_keeps (decodeWires (s.choose s.now.cmd)) s.opened).trans (work_keeps k _)
      exact ⟨_, hidle, hkeeps.cap, hkeeps.inputs⟩
  · rw [h]
    rcases onBusy_cases s with ⟨-, hbusy⟩ | ⟨k, -, hbusy⟩
    · rw [hbusy]
      exact hexec _ _ rfl rfl
    · have hkeeps := work_keeps k s.notePresented.consume
      exact ⟨_, hbusy, hkeeps.cap, hkeeps.inputs⟩
  · rcases onDone_cases s with ⟨-, hdone⟩ | ⟨-, hdone⟩
    · exact ⟨_, h, by rw [hdone]; rfl, by rw [hdone]; rfl⟩
    · exact ⟨_, h, by rw [hdone]; rfl, by rw [hdone]; rfl⟩

end Sys2Proof.Machine

/-! PROOFS. The protocol's invariant and what follows from it (10_state.md sections 1 and 6; 20_memory.md section 4;
70_reset_and_hazards.md R170, R180): a command in flight is a number of micro-steps from its acceptance, and every step
either brings it on or brings its answer. -/

namespace Sys2Proof.Machine

/-! ### A command in flight, and one answered -/

/-- BUSY with a valid command, `k` micro-steps after its acceptance and short of its last one. -/
structure State.InFlight (s : State) (k : Nat) : Prop where
  valid : validInstr s.cap s.captured = true
  lt : k < referenceSteps s.captured
  accepted : ∃ before, s = work k (accept s.captured before)

/-- DONE with the response to the captured command. -/
structure State.Answered (s : State) : Prop where
  phase : s.phase = .done
  rsp : s.rsp = responseOf s.cap s.captured

theorem SameCommand.captured {s t : State} (h : SameCommand s t) : t.captured = s.captured := by
  simp only [State.captured, h.op, h.a, h.b]

@[simp] theorem captureInstr_captured (s : State) (i : Instr) : (s.captureInstr i).captured = i :=
  decodeWires_encodeWires i

@[simp] theorem work_accept_captured (k : Nat) (i : Instr) (s : State) : (work k (accept i s)).captured = i :=
  (work_keeps k _).captured.trans (accept_captured i s)

@[simp] theorem work_cap (k : Nat) (s : State) : (work k s).cap = s.cap := (work_keeps k s).cap

theorem exec_answered {i : Instr} {s t : State} (h : exec i s = .next t) : t.Answered := by
  have hkeeps := exec_keeps h
  obtain ⟨u, hu⟩ := exec_eq_answer_replyTo i s
  rw [h] at hu
  cases hu
  refine ⟨rfl, ?_⟩
  rw [hkeeps.captured, captureInstr_captured, hkeeps.cap]
  exact replyTo_eq_responseOf s i

/-- From acceptance, `k` micro-steps leave a command in flight or answered. -/
theorem work_accept_cases (i : Instr) (s : State) (k : Nat) :
    (k < referenceSteps i ∧ (work k (accept i s)).InFlight k) ∨ (work k (accept i s)).Answered := by
  have hend : (work (referenceSteps i) (accept i s)).Answered := exec_answered (exec_eq_work_accept i s)
  by_cases hk : k < referenceSteps i
  · cases hvalid : validInstr s.cap i with
    | true =>
      refine .inl ⟨hk, ?_, ?_, s, ?_⟩ <;> simp only [work_accept_captured, work_cap, accept_cap, hvalid, hk]
    | false =>
      have hdone : (accept i s).phase ≠ .busy := by rw [accept_of_invalid hvalid]; simp
      rw [work_of_not_busy _ _ hdone] at hend ⊢
      exact .inr hend
  · obtain ⟨l, rfl⟩ : ∃ l, k = referenceSteps i + l := ⟨k - referenceSteps i, by omega⟩
    have hdone : (work (referenceSteps i) (accept i s)).phase ≠ .busy := by rw [hend.phase]; simp
    rw [work_add, work_of_not_busy _ _ hdone]
    exact .inr hend

section
variable {s : State} {k : Nat}

theorem State.InFlight.phase (h : s.InFlight k) : s.phase = .busy := by
  obtain ⟨before, hs⟩ := h.accepted
  have hvalid : validInstr before.cap s.captured = true := by
    have hcap : s.cap = before.cap := by rw [hs, work_cap, accept_cap]
    exact hcap ▸ h.valid
  rw [hs]
  exact (microStepsComputeExec _ before hvalid).2 k h.lt

/-- More micro-steps, under any schedule and record. -/
theorem State.InFlight.work_cases (h : s.InFlight k) (l : List Tick) (p : List CmdWires) (d j : Nat) :
    (k + j < referenceSteps s.captured ∧ (work j (s.withHost l p d)).InFlight (k + j)) ∨
      (work j (s.withHost l p d)).Answered := by
  obtain ⟨before, hs⟩ := h.accepted
  have hfrom : work j (s.withHost l p d) = work (k + j) (accept s.captured (before.withHost l p d)) := by
    rw [work_add, accept_withHost, work_withHost (accept s.captured before), ← hs]
  rw [hfrom]
  exact work_accept_cases _ _ _

theorem capturedInvalid_eq (s : State) : s.capturedInvalid = !validInstr s.cap s.captured := by
  rw [← invalidInstr_eq_not_validInstr, invalidInstr, State.captured, encodeWires_decodeWires]
  rfl

theorem coherent_of_idle (h : s.phase = .idle) : s.Coherent := by simp [State.Coherent, h]

theorem coherent_busy_iff (h : s.phase = .busy) : s.Coherent ↔ ∃ k, s.InFlight k := by
  simp only [State.Coherent, h, capturedInvalid_eq, Bool.not_eq_false']
  exact ⟨fun ⟨hvalid, k, before, hlt, hs⟩ => ⟨k, hvalid, hlt, before, hs⟩,
    fun ⟨k, hvalid, hlt, before, hs⟩ => ⟨hvalid, k, before, hlt, hs⟩⟩

theorem coherent_done_iff (h : s.phase = .done) : s.Coherent ↔ s.Answered := by
  simp only [State.Coherent, h]
  exact ⟨fun hrsp => ⟨h, hrsp⟩, State.Answered.rsp⟩

theorem State.InFlight.coherent (h : s.InFlight k) : s.Coherent := (coherent_busy_iff h.phase).2 ⟨k, h⟩

theorem State.Answered.coherent (h : s.Answered) : s.Coherent := (coherent_done_iff h.phase).2 h

end

/-- Settles O56: IDLE asks for nothing. -/
theorem resetIsCoherent : Obligations.ResetIsCoherent := ⟨coherent_of_idle rfl, fun _ => coherent_of_idle rfl⟩

/-- Settles O53: the reference count of micro-steps, or more, leave nothing in flight. -/
theorem commandInFlightEnds : Obligations.CommandInFlightEnds := by
  intro s k hcoherent hphase hk
  obtain ⟨n, hflight⟩ := (coherent_busy_iff hphase).1 hcoherent
  rcases hflight.work_cases s.inputs s.presented s.draws k with ⟨hlt, -⟩ | hanswered
  · omega
  · have hkeeps := work_keeps k s
    refine ⟨hanswered.phase, hanswered.rsp.trans ?_⟩
    exact congrArg₂ responseOf hkeeps.cap hkeeps.captured

/-! ### One step of the protocol -/

/-- A step of a BUSY core out of reset: the same command, in flight or answered. -/
theorem State.InFlight.step {s : State} {k : Nat} (h : s.InFlight k) (hrst : s.now.rst = false) :
    ∃ t, step s = .next t ∧ t.cap = s.cap ∧ t.captured = s.captured ∧ t.inputs = s.inputs.tail ∧
      (t.Answered ∨ ∃ j, s.now.pace = .ticks j ∧ t.InFlight (k + j)) := by
  rw [step_of_busy hrst h.phase]
  rcases onBusy_cases s with ⟨-, hbusy⟩ | ⟨j, hpace, hbusy⟩
  · obtain ⟨t, ht⟩ : ∃ t, exec s.captured s.notePresented.consume = .next t := ⟨_, exec_eq_work_accept _ _⟩
    have hkeeps := exec_keeps ht
    exact ⟨t, hbusy.trans ht, hkeeps.cap, hkeeps.captured.trans (captureInstr_captured _ _), hkeeps.inputs,
      .inl (exec_answered ht)⟩
  · have hkeeps := work_keeps j s.notePresented.consume
    refine ⟨_, hbusy, hkeeps.cap, hkeeps.captured, hkeeps.inputs, ?_⟩
    rcases h.work_cases s.inputs.tail s.notePresented.presented s.draws j with ⟨-, hmore⟩ | hdone
    · exact .inr ⟨j, hpace, hmore⟩
    · exact .inl hdone

/-- A command accepted and its response not yet taken: in flight, or answered. -/
def State.Pending (s : State) : Prop := s.Answered ∨ ∃ k, s.InFlight k

theorem State.Pending.outstanding {s : State} (h : s.Pending) : s.outstanding = some s.captured := by
  rcases h with h | ⟨k, h⟩
  · simp only [State.outstanding, h.phase]
  · simp only [State.outstanding, h.phase]

theorem State.Pending.coherent {s : State} (h : s.Pending) : s.Coherent :=
  h.elim State.Answered.coherent fun ⟨_, h⟩ => h.coherent

theorem outstanding_of_idle {s : State} (h : s.phase = .idle) : s.outstanding = none := by
  simp only [State.outstanding, h]

/-- What one step is to the protocol: its events, and the command outstanding before and after. -/
inductive ProtocolStep (s t : State) : Prop
  /-- a reset drops the command outstanding (R170) -/
  | reset (events : s.eventsNow = [.reset]) (after : t.phase = .idle)
  /-- nothing outstanding, nothing presented -/
  | wait (before : s.phase = .idle) (events : s.eventsNow = []) (after : t.phase = .idle)
  /-- a command is accepted (R34) -/
  | accept (before : s.phase = .idle) (events : s.eventsNow = [.accepted t.captured]) (after : t.Pending)
  /-- the command outstanding goes on, or its response is held (R35, R176) -/
  | hold (before : s.Pending) (events : s.eventsNow = []) (after : t.Pending) (captured : t.captured = s.captured)
  /-- the response is taken (R36) -/
  | take (before : s.Answered) (events : s.eventsNow = [.took s.rsp]) (after : t.phase = .idle)

section
variable {s : State} (hrst : s.now.rst = false)
include hrst

theorem takenNow_of_ne_done (hphase : s.phase ≠ .done) : s.takenNow = none := by
  simp [State.takenNow, rspValid_of_not_rst hrst, hphase]

theorem eventsNow_of_busy (hphase : s.phase = .busy) : s.eventsNow = [] := by
  rw [State.eventsNow_of_not_rst hrst, State.acceptedNow_of_phase_ne_idle (by simp [hphase]),
    takenNow_of_ne_done hrst (by simp [hphase])]
  rfl

theorem eventsNow_of_idle (hphase : s.phase = .idle) :
    s.eventsNow = if s.now.cmdValid then [.accepted (decodeWires (s.choose s.now.cmd))] else [] := by
  have hready := (State.cmdReady_eq_true_iff s).2 ⟨hphase, hrst⟩
  rw [State.eventsNow_of_not_rst hrst, takenNow_of_ne_done hrst (by simp [hphase]), State.acceptedNow, hready,
    Bool.true_and]
  split <;> rfl

theorem eventsNow_of_done (hphase : s.phase = .done) : s.eventsNow = if s.now.rspReady then [.took s.rsp] else [] := by
  rw [State.eventsNow_of_not_rst hrst, State.acceptedNow_of_phase_ne_idle (by simp [hphase]), State.takenNow,
    rspValid_of_not_rst hrst, hphase]
  cases s.now.rspReady <;> rfl

theorem protocolStep_of_idle {t : State} (hphase : s.phase = .idle) (h : onIdle s = .next t) : ProtocolStep s t := by
  have hevents := eventsNow_of_idle hrst hphase
  rcases onIdle_cases s with ⟨hvalid, hidle⟩ | ⟨hvalid, -, hidle⟩ | ⟨hvalid, k, -, hidle⟩
  · cases hidle.symm.trans h
    exact .wait hphase (by simpa [hvalid] using hevents) hphase
  · have hexec := hidle.symm.trans h
    have hcaptured : t.captured = decodeWires (s.choose s.now.cmd) :=
      (exec_keeps hexec).captured.trans (captureInstr_captured _ _)
    refine .accept hphase ?_ (.inl (exec_answered hexec))
    rw [hevents, hvalid, hcaptured, if_pos rfl]
  · cases hidle.symm.trans h
    refine .accept hphase ?_ ?_
    · rw [hevents, hvalid, work_accept_captured, if_pos rfl]
    · exact (work_accept_cases _ _ k).symm.imp_right fun ⟨_, hflight⟩ => ⟨k, hflight⟩

theorem protocolStep_of_done (h : s.Answered) : ProtocolStep s (onDone s) := by
  have hevents := eventsNow_of_done hrst h.phase
  rcases onDone_cases s with ⟨hready, hdone⟩ | ⟨hready, hdone⟩
  · rw [hdone]
    exact .take h (by simpa [hready] using hevents) rfl
  · rw [hdone]
    exact .hold (.inl h) (by simpa [hready] using hevents) (.inl ⟨h.phase, h.rsp⟩) rfl

end

theorem protocolStep {s t : State} (hcoherent : s.Coherent) (h : step s = .next t) : ProtocolStep s t := by
  rcases step_cases s with ⟨hrst, hstep⟩ | ⟨hrst, hphase, hstep⟩ | ⟨hrst, hphase, hstep⟩ | ⟨hrst, hphase, hstep⟩
  · cases hstep.symm.trans h
    exact .reset (by simp [State.eventsNow, hrst]) rfl
  · exact protocolStep_of_idle hrst hphase (hstep.symm.trans h)
  · obtain ⟨k, hflight⟩ := (coherent_busy_iff hphase).1 hcoherent
    obtain ⟨u, hu, -, hcaptured, -, hnext⟩ := hflight.step hrst
    cases hu.symm.trans h
    exact .hold (.inr ⟨k, hflight⟩) (eventsNow_of_busy hrst hphase)
      (hnext.imp_right fun ⟨_, _, hmore⟩ => ⟨_, hmore⟩) hcaptured
  · cases hstep.symm.trans h
    exact protocolStep_of_done hrst ((coherent_done_iff hphase).1 hcoherent)

/-- Settles O55: after every kind of step the core is in IDLE or has its command pending. -/
theorem stepKeepsCoherence : Obligations.StepKeepsCoherence := by
  intro s t hcoherent h
  cases protocolStep hcoherent h with
  | reset _ after => exact coherent_of_idle after
  | wait _ _ after => exact coherent_of_idle after
  | accept _ _ after => exact after.coherent
  | hold _ _ after _ => exact after.coherent
  | take _ _ after => exact coherent_of_idle after

/-! ### Histories -/

/-- One step's events take the history from the command outstanding before it to the one outstanding after. -/
theorem wellAnswered_eventsNow_append {s t : State} (h : ProtocolStep s t) (es : List Event) :
    wellAnswered s.cap s.outstanding (s.eventsNow ++ es) = wellAnswered s.cap t.outstanding es := by
  cases h with
  | reset events after => rw [events, outstanding_of_idle after]; cases s.outstanding <;> rfl
  | wait before events after => rw [events, outstanding_of_idle before, outstanding_of_idle after]; rfl
  | accept before events after => rw [events, outstanding_of_idle before, after.outstanding]; rfl
  | hold before events after captured => rw [events, before.outstanding, after.outstanding, captured]; rfl
  | take before events after =>
    have hpending : s.Pending := .inl before
    rw [events, hpending.outstanding, outstanding_of_idle after, before.rsp]
    simp [wellAnswered]

/-- Settles O59, by induction on the number of steps: each keeps the core coherent and the history well answered. -/
theorem responsesTakenAreOfOutstandingCommand : Obligations.ResponsesTakenAreOfOutstandingCommand := by
  intro k
  induction k with
  | zero => exact fun s _ => by simp [events, wellAnswered]
  | succ k ih =>
    intro s hcoherent
    obtain ⟨t, hstep, hcap, -⟩ := everyStepHasNextState s
    rw [events_succ_of_next k hstep, wellAnswered_eventsNow_append (protocolStep hcoherent hstep), ← hcap]
    exact ih t (stepKeepsCoherence s t hcoherent hstep)

/-! ### Every schedule -/

/-- A move that brings no answer delays the core at most while moves are scheduled; after them each step is a
micro-step. So the moves and the micro-steps left get fewer with every step. -/
theorem State.InFlight.run {n : Nat} {s : State} {k : Nat} (h : s.InFlight k)
    (hn : s.inputs.length + (referenceSteps s.captured - k) ≤ n) (hmoves : ∀ m ∈ s.inputs, m.rst = false) :
    ∃ (l : Nat) (t : State), l ≤ n ∧ Host.Core.run Sys2Proof.core l s = .next t ∧ t.Answered ∧
      t.captured = s.captured ∧ t.cap = s.cap := by
  induction n generalizing s k with
  | zero => exact absurd h.lt (by omega)
  | succ n ih =>
    have hrst : s.now.rst = false := now_of_forall_mem_take (p := fun m => m.rst = false) (k := s.inputs.length) rfl
      fun m hm => hmoves m (List.mem_of_mem_take hm)
    obtain ⟨t, hstep, hcap, hcaptured, hin, hnext⟩ := h.step hrst
    rcases hnext with hanswered | ⟨j, hpace, hmore⟩
    · exact ⟨1, t, by omega, core_run_succ 0 s t hstep, hanswered, hcaptured, hcap⟩
    · have hless : t.inputs.length + (referenceSteps t.captured - (k + j)) ≤ n := by
        rw [hin, hcaptured, List.length_tail]
        cases hs : s.inputs with
        | nil =>
          rw [now_of_no_inputs s hs] at hpace
          cases hpace
          have hlt := h.lt
          rw [hs, List.length_nil] at hn
          rw [List.length_nil]
          omega
        | cons m rest =>
          rw [hs, List.length_cons] at hn
          rw [List.length_cons]
          omega
      obtain ⟨l, u, hl, hrun, hu, hucaptured, hucap⟩ := ih hmore hless fun m hm =>
        hmoves m (List.mem_of_mem_tail (hin ▸ hm))
      exact ⟨l + 1, u, by omega, (core_run_succ l s t hstep).trans hrun, hu, hucaptured.trans hcaptured,
        hucap.trans hcap⟩

/-- Settles O60: in flight at some micro-step, and at least as many steps as that are left. -/
theorem busyCoreAnswersOnEverySchedule : Obligations.BusyCoreAnswersOnEverySchedule := by
  intro s hcoherent hphase hmoves
  obtain ⟨k, hflight⟩ := (coherent_busy_iff hphase).1 hcoherent
  obtain ⟨l, t, hl, hrun, hanswered, hcaptured, hcap⟩ :=
    hflight.run (n := s.inputs.length + referenceSteps s.captured) (by omega) hmoves
  exact ⟨l, t, hl, hrun, hanswered.phase, hcaptured, by rw [hanswered.rsp, hcaptured, hcap]⟩

end Sys2Proof.Machine

/-! PROOFS. The widths of the latches (10_state.md section 3; 00_scope.md section 4; 42_hamming_commands.md R135): where
a BUSY core is in its algorithm bounds every latch it writes, and each micro-step keeps it there. -/

namespace Sys2Proof.Machine

/-! ### What a capacity holds -/

section
variable {cap : Capacity}

/-- `LEN_W` wires hold every length the capacity admits (00_scope.md section 4). -/
theorem Capacity.holdsLen_of_le {k m : Nat} (h : k ≤ m) (hm : cap.admits m = true) : cap.holdsLen k = true := by
  cases cap with
  | bounded c =>
    have hc : m ≤ c := by simpa [Capacity.admits] using hm
    have hlog : c < 2 ^ lenW c := Nat.lt_log2_self
    simp [Capacity.holdsLen]
    omega
  | unbounded => rfl

/-- R135: a syndrome of `r_dec(m)` checks fits `POS_W` wires. -/
theorem Capacity.holdsPos_of_lt {e m : Nat} (he : e < 2 ^ rDec m) (hm : cap.admits m = true) :
    cap.holdsPos e = true := by
  cases cap with
  | bounded c =>
    have hc : m ≤ c := by simpa [Capacity.admits] using hm
    have hpow : 2 ^ rDec m ≤ 2 ^ posW c := Nat.pow_le_pow_right two_pos ((rDec_le_lenW hc).trans (Nat.le_succ _))
    exact decide_eq_true (he.trans_le hpow)
  | unbounded => rfl

@[simp] theorem Capacity.admits_zero : cap.admits 0 = true := by cases cap <;> simp [Capacity.admits]
@[simp] theorem Capacity.holdsLen_zero : cap.holdsLen 0 = true := by cases cap <;> simp [Capacity.holdsLen]
@[simp] theorem Capacity.holdsBits_zero : cap.holdsBits 0 = true := by cases cap <;> simp [Capacity.holdsBits]
@[simp] theorem Capacity.holdsPos_zero : cap.holdsPos 0 = true := by cases cap <;> simp [Capacity.holdsPos]

end

theorem rDec_le_self {m : Nat} (hm : 1 ≤ m) : rDec m ≤ m := by
  have hself : rDec m - 1 < 2 ^ (rDec m - 1) := Nat.lt_two_pow_self
  exact Nat.le_of_pred_lt (hself.trans_le (two_pow_rDec_sub_one_le hm))

/-! ### Latches that fit -/

/-- The CRC unit's latches keep to the widths of R26. -/
structure DivLatches.Fit (cap : Capacity) (v : DivLatches) : Prop where
  divd : cap.admits v.divd.length = true
  tmp : cap.admits v.tmp.length = true
  pick : cap.holdsLen v.pick = true

/-- The Hamming unit's latches keep to the widths of R27. -/
structure HamLatches.Fit (cap : Capacity) (h : HamLatches) : Prop where
  r : cap.holdsLen h.r = true
  cw : cap.admits h.cw.length = true
  pos : cap.holdsLen h.pos = true
  didx : cap.holdsLen h.didx = true
  pi : cap.holdsLen h.pi = true
  j : cap.holdsLen h.j = true
  errAcc : cap.holdsPos h.errAcc = true

/-- All latches keep to their widths (R25 to R28), unit by unit; `fits_iff` ties it to `latchesFit`. -/
structure State.Fits (s : State) : Prop where
  a : s.a.wellFormed s.cap = true
  b : s.b.wellFormed s.cap = true
  div : s.div.Fit s.cap
  ham : s.ham.Fit s.cap
  rsp : s.rsp.fits s.cap = true

theorem fits_iff (s : State) : s.Fits ↔ s.latchesFit = true := by
  simp only [State.latchesFit, Bool.and_eq_true, and_assoc]
  constructor
  · rintro ⟨ha, hb, ⟨h1, h2, h3⟩, ⟨h4, h5, h6, h7, h8, h9, h10⟩, hrsp⟩
    simp only [Response.fits, Bool.and_eq_true, and_assoc] at hrsp
    exact ⟨ha, hb, h1, h2, h3, h4, h5, h6, h7, h8, h9, h10, hrsp⟩
  · rintro ⟨ha, hb, h1, h2, h3, h4, h5, h6, h7, h8, h9, h10, hrsp⟩
    refine ⟨ha, hb, ⟨h1, h2, h3⟩, ⟨h4, h5, h6, h7, h8, h9, h10⟩, ?_⟩
    simpa only [Response.fits, Bool.and_eq_true, and_assoc] using hrsp

theorem response_fits_iff (cap : Capacity) (r : Response) :
    r.fits cap = true ↔
      cap.admits r.r0.length = true ∧ cap.admits r.r1.length = true ∧ cap.holdsPos r.errpos = true := by
  simp only [Response.fits, Bool.and_eq_true, and_assoc]

/-! ### Where a BUSY core is in its algorithm -/

/-- The divider's loop: the window is no longer than the key, `PICK` is inside the dividend. -/
structure State.Dividing (s : State) : Prop where
  key : 1 ≤ s.b.len
  keyFits : s.cap.admits s.b.len = true
  dividend : s.cap.admits s.div.divd.length = true
  window : s.div.tmp.length ≤ s.b.len
  pick : s.div.pick ≤ s.div.divd.length
  result : s.op = 0b00#2 → s.cap.admits (s.a.len + s.b.len - 1) = true

/-- The search: `R` has not passed the value it looks for; the decoder's word is in `CW`. -/
structure State.Searching (s : State) : Prop where
  one_le : 1 ≤ s.ham.r
  enc : s.op = 0b10#2 → validHamEnc s.cap s.a.len = true ∧ s.ham.r ≤ rEnc s.a.len
  dec : s.op ≠ 0b10#2 → validHamDec s.cap s.a.len = true ∧ s.ham.r ≤ rDec s.a.len ∧ s.ham.cw.length = s.a.len

/-- Placement and parity: `R` and the length of `CW` are the encode's. -/
structure State.Encoding (s : State) : Prop where
  valid : validHamEnc s.cap s.a.len = true
  r : s.ham.r = rEnc s.a.len
  cw : s.ham.cw.length = s.a.len + s.ham.r

/-- Checks and correction: `R` and the length of `CW` are the decode's. -/
structure State.Decoding (s : State) : Prop where
  valid : validHamDec s.cap s.a.len = true
  r : s.ham.r = rDec s.a.len
  cw : s.ham.cw.length = s.a.len

/-- The loop a BUSY core is in, with its loop variables in their ranges. -/
def State.OnTrack (s : State) : Prop :=
  match s.stage with
  | .rest => False
  | .divide => s.Dividing
  | .search => s.Searching ∧ s.short s.ham.r = true
  | .place pos => s.Encoding ∧ 1 ≤ pos ∧ pos ≤ s.a.len + s.ham.r ∧ s.ham.didx < pos
  | .parity i j => s.Encoding ∧ i < s.ham.r ∧ 1 ≤ j ∧ j ≤ s.a.len + s.ham.r
  | .check i j => s.Decoding ∧ i < s.ham.r ∧ 1 ≤ j ∧ j ≤ s.a.len ∧ s.ham.errAcc < 2 ^ i
  | .correct => s.Decoding ∧ s.ham.errAcc < 2 ^ s.ham.r

/-- A core that is on track if it is BUSY. -/
def State.Tracked (s : State) : Prop := s.phase = .busy → s.OnTrack

/-- What one update of the core keeps: it is on track, and latches that fit still do. -/
structure KeepsFit (s t : State) : Prop where
  tracked : t.Tracked
  fits : s.Fits → t.Fits

/-- An update inside the Hamming unit's loops. -/
theorem keepsFit_inLoop {s : State} {h : HamLatches} {st : Stage} (htrack : (s.inLoop h st).OnTrack)
    (hfit : s.ham.Fit s.cap → h.Fit s.cap) : KeepsFit s (s.inLoop h st) :=
  ⟨fun _ => htrack, fun hs => ⟨hs.a, hs.b, hs.div, hfit hs.ham, hs.rsp⟩⟩

/-- The end of a command of the Hamming unit. -/
theorem keepsFit_answer_ham {s : State} {h : HamLatches} {r : Response} (hfit : s.ham.Fit s.cap → h.Fit s.cap)
    (hr : s.ham.Fit s.cap → r.fits s.cap = true) : KeepsFit s ({ s with ham := h }.answer r) :=
  ⟨fun hbusy => by simp at hbusy, fun hs => ⟨hs.a, hs.b, hs.div, hfit hs.ham, hr hs.ham⟩⟩

/-! ### The search -/

theorem rEnc_of_not_short {n r : Nat} (hr : 1 ≤ r) (hle : r ≤ rEnc n) (hshort : encShort n r = false) : r = rEnc n :=
  le_antisymm hle ((rEnc_le_iff hr).2 ((encShort_eq_false_iff n r).1 hshort))

theorem rDec_of_not_short {m r : Nat} (hr : 1 ≤ r) (hle : r ≤ rDec m) (hshort : decShort m r = false) : r = rDec m :=
  le_antisymm hle ((rDec_le_iff hr).2 ((decShort_eq_false_iff m r).1 hshort))

/-- Leaving the search, `R` is at the value it looked for, and the next loop opens. -/
theorem keepsFit_settleSearch {s : State} (h : s.Searching) : KeepsFit s s.settleSearch := by
  have hmore : s.short s.ham.r = true → KeepsFit s { s with stage := .search } := fun hshort =>
    ⟨fun _ => ⟨⟨h.one_le, h.enc, h.dec⟩, hshort⟩, fun hs => ⟨hs.a, hs.b, hs.div, hs.ham, hs.rsp⟩⟩
  unfold State.settleSearch
  unfold State.short at hmore
  split
  · next hop =>
    rw [if_pos hop] at hmore
    obtain ⟨hvalid, hle⟩ := h.enc hop
    obtain ⟨hn, hadmits⟩ := (validHamEnc_iff _ _).1 hvalid
    split
    · next hshort => exact hmore hshort
    · next hshort =>
      have hr := rEnc_of_not_short h.one_le hle (Bool.eq_false_iff.2 hshort)
      have hlen : (zeros (s.a.len + s.ham.r)).length = s.a.len + s.ham.r := zeros_length _
      have hpos : 1 ≤ s.a.len + s.ham.r := Nat.le_add_right_of_le hn
      refine ⟨fun _ => ⟨⟨hvalid, hr, hlen⟩, le_rfl, hpos, Nat.zero_lt_one⟩, fun hs => ⟨hs.a, hs.b, hs.div, ?_, hs.rsp⟩⟩
      have hcw : s.cap.admits (zeros (s.a.len + s.ham.r)).length = true := by rw [hlen, hr]; exact hadmits
      exact ⟨hs.ham.r, hcw, hs.ham.pos, Capacity.holdsLen_zero, hs.ham.pi, hs.ham.j, hs.ham.errAcc⟩
  · next hop =>
    rw [if_neg hop] at hmore
    obtain ⟨hvalid, hle, hcw⟩ := h.dec hop
    obtain ⟨hm, -⟩ := (validHamDec_iff _ _).1 hvalid
    split
    · next hshort => exact hmore hshort
    · next hshort =>
      have hr := rDec_of_not_short h.one_le hle (Bool.eq_false_iff.2 hshort)
      refine ⟨fun _ => ⟨⟨hvalid, hr, hcw⟩, h.one_le, le_rfl, hm, Nat.zero_lt_one⟩,
        fun hs => ⟨hs.a, hs.b, hs.div, ?_, hs.rsp⟩⟩
      exact ⟨hs.ham.r, hs.ham.cw, hs.ham.pos, hs.ham.didx, hs.ham.pi, hs.ham.j, Capacity.holdsPos_zero⟩

/-- `R` is a length the capacity admits: `r_enc(n)` is part of the codeword's, `r_dec(m)` at most `m`. -/
theorem State.Searching.holdsLen_r {s : State} (h : s.Searching) : s.cap.holdsLen s.ham.r = true := by
  by_cases hop : s.op = 0b10#2
  · obtain ⟨hvalid, hle⟩ := h.enc hop
    obtain ⟨-, hadmits⟩ := (validHamEnc_iff _ _).1 hvalid
    exact Capacity.holdsLen_of_le (by omega) hadmits
  · obtain ⟨hvalid, hle, -⟩ := h.dec hop
    obtain ⟨hm, hadmits⟩ := (validHamDec_iff _ _).1 hvalid
    exact Capacity.holdsLen_of_le (hle.trans (rDec_le_self hm)) hadmits

/-- A new `R` starts or goes on with the search. -/
theorem keepsFit_search {s u : State} {h : HamLatches} (hu : u = { s with ham := h, phase := .busy })
    (hsearch : u.Searching) (hfit : s.ham.Fit s.cap → s.cap.holdsLen h.r = true → h.Fit s.cap) :
    KeepsFit s u.settleSearch := by
  have hsettle := keepsFit_settleSearch hsearch
  refine ⟨hsettle.tracked, fun hs => hsettle.fits ?_⟩
  have hr := hsearch.holdsLen_r
  subst hu
  exact ⟨hs.a, hs.b, hs.div, hfit hs.ham hr, hs.rsp⟩

theorem keepsFit_microStep_search {s : State} {h : HamLatches} (hsearch : (s.inLoop h .search).Searching)
    (hshort : s.short h.r = true) : KeepsFit (s.inLoop h .search) (microStep (s.inLoop h .search)) := by
  rw [microStep_search]
  refine keepsFit_search (h := { h with r := h.r + 1 }) rfl ⟨Nat.le_add_left 1 _, fun hop => ?_, fun hop => ?_⟩
    fun hfit hr => ⟨hr, hfit.cw, hfit.pos, hfit.didx, hfit.pi, hfit.j, hfit.errAcc⟩
  · obtain ⟨hvalid, hle⟩ := hsearch.enc hop
    refine ⟨hvalid, lt_of_le_of_ne hle fun heq => ?_⟩
    obtain ⟨hn, -⟩ := (validHamEnc_iff _ _).1 hvalid
    have hshort' : encShort s.a.len h.r = true := (if_pos hop).symm.trans hshort
    have hend : encShort s.a.len h.r = false := (encShort_eq_false_iff _ _).2 (heq ▸ rEnc_fits hn)
    simp [hend] at hshort'
  · obtain ⟨hvalid, hle, hcw⟩ := hsearch.dec hop
    refine ⟨hvalid, lt_of_le_of_ne hle fun heq => ?_, hcw⟩
    have hshort' : decShort s.a.len h.r = true := (if_neg hop).symm.trans hshort
    have hend : decShort s.a.len h.r = false := (decShort_eq_false_iff _ _).2 (heq ▸ lt_two_pow_rDec _)
    simp [hend] at hshort'

/-! ### Placement and parity -/

theorem State.Encoding.admits {s : State} (h : s.Encoding) : s.cap.admits (s.a.len + s.ham.r) = true := by
  rw [h.r]
  exact ((validHamEnc_iff _ _).1 h.valid).2

theorem placeAt_didx_le (data : BitString) (h : HamLatches) (pos : Nat) : (h.placeAt data pos).didx ≤ h.didx + 1 := by
  unfold HamLatches.placeAt
  split
  · exact Nat.le_succ _
  · exact le_rfl

section
variable {s : State} {h : HamLatches}

theorem keepsFit_microStep_place {pos : Nat} (htrack : (s.inLoop h (.place pos)).OnTrack) :
    KeepsFit (s.inLoop h (.place pos)) (microStep (s.inLoop h (.place pos))) := by
  obtain ⟨henc, h1, hle, hdidx⟩ := htrack
  obtain ⟨hr, hpi, hj, hacc, herr, hpos, hcw, -⟩ := placeAt_keeps s.a.value h pos
  have hadmits := henc.admits
  have hcount : (h.placeAt s.a.value pos).didx ≤ pos := (placeAt_didx_le _ _ _).trans hdidx
  have hencoding (st : Stage) : (s.inLoop (h.placeAt s.a.value pos) st).Encoding :=
    ⟨henc.valid, hr.trans henc.r, hcw.trans (henc.cw.trans (congrArg _ hr.symm))⟩
  have hfit (hh : h.Fit s.cap) : (h.placeAt s.a.value pos).Fit s.cap :=
    ⟨hr ▸ hh.r, hcw ▸ hh.cw, Capacity.holdsLen_of_le (hpos.le.trans hle) hadmits,
      Capacity.holdsLen_of_le (hcount.trans hle) hadmits, hpi ▸ hh.pi, hj ▸ hh.j, herr ▸ hh.errAcc⟩
  by_cases hlast : pos < s.a.len + h.r
  · rw [microStep_place_of_lt s h hlast]
    refine keepsFit_inLoop (s := s.inLoop h (.place pos)) ⟨hencoding _, Nat.le_add_left 1 pos, ?_, ?_⟩ hfit
    · exact hlast.trans_eq (congrArg _ hr.symm)
    · exact Nat.lt_succ_of_le hcount
  · rw [microStep_place_of_le s h (not_lt.1 hlast)]
    refine keepsFit_inLoop (s := s.inLoop h (.place pos)) ⟨hencoding _, ?_, le_rfl, ?_⟩ hfit
    · obtain ⟨hn, -⟩ := (validHamEnc_iff _ _).1 henc.valid
      have hr' : (h.placeAt s.a.value pos).r = rEnc s.a.len := hr.trans henc.r
      exact (Nat.zero_lt_two.trans_le (two_le_rEnc hn)).trans_eq hr'.symm
    · exact (h1.trans hle).trans_eq (congrArg _ hr.symm)

theorem HamLatches.Fit.entering {cap : Capacity} {i : Nat} (hh : h.Fit cap) (hi : cap.holdsLen i = true) (j : Nat) :
    (h.entering i j).Fit cap := by
  unfold HamLatches.entering
  split
  · exact ⟨hh.r, hh.cw, hh.pos, hh.didx, hi, hh.j, hh.errAcc⟩
  · exact hh

/-- A visit leaves `J` at a position and changes no other latch of a width. -/
theorem HamLatches.Fit.visit {cap : Capacity} {j : Nat} (hh : h.Fit cap) (hj : cap.holdsLen j = true) (acc : Bit) :
    { h with j := j, acc := acc }.Fit cap := ⟨hh.r, hh.cw, hh.pos, hh.didx, hh.pi, hj, hh.errAcc⟩

theorem HamLatches.Fit.closeParity {cap : Capacity} (hh : h.Fit cap) (i : Nat) : (h.closeParity i).Fit cap :=
  ⟨hh.r, (setAt_length _ _ _).symm ▸ hh.cw, hh.pos, hh.didx, hh.pi, hh.j, hh.errAcc⟩

@[simp] theorem entering_cw (i j : Nat) : (h.entering i j).cw = h.cw := by unfold HamLatches.entering; split <;> rfl

@[simp] theorem entering_errAcc (i j : Nat) : (h.entering i j).errAcc = h.errAcc := by
  unfold HamLatches.entering; split <;> rfl

theorem keepsFit_microStep_parity {i j : Nat} (htrack : (s.inLoop h (.parity i j)).OnTrack) :
    KeepsFit (s.inLoop h (.parity i j)) (microStep (s.inLoop h (.parity i j))) := by
  obtain ⟨henc, hi, h1, hle⟩ := htrack
  have hadmits := henc.admits
  have hr : h.r = rEnc s.a.len := henc.r
  have hcw : h.cw.length = s.a.len + h.r := henc.cw
  have hpos : 1 ≤ s.a.len + h.r := h1.trans hle
  have hilen : s.cap.holdsLen i = true := Capacity.holdsLen_of_le (hi.le.trans (Nat.le_add_left _ _)) hadmits
  have hvisit (hh : h.Fit s.cap) : ((h.entering i j).parityVisit i j).Fit s.cap :=
    (hh.entering hilen j).visit (Capacity.holdsLen_of_le hle hadmits) _
  have hclose (hh : h.Fit s.cap) : (((h.entering i j).parityVisit i j).closeParity i).Fit s.cap :=
    (hvisit hh).closeParity i
  have hvr : ((h.entering i j).parityVisit i j).r = h.r := entering_r h i j
  have hvcw : ((h.entering i j).parityVisit i j).cw = h.cw := entering_cw i j
  have hclen : (((h.entering i j).parityVisit i j).closeParity i).cw.length = s.a.len + h.r := by
    rw [closeParity_cw, setAt_length, hvcw, hcw]
  by_cases hlast : j < s.a.len + h.r
  · rw [microStep_parity_of_lt s h hlast]
    refine keepsFit_inLoop (s := s.inLoop h (.parity i j)) ⟨⟨henc.valid, hvr.trans hr, ?_⟩, ?_, ?_, ?_⟩ hvisit
    · exact (congrArg List.length hvcw).trans (hcw.trans (congrArg _ hvr.symm))
    · exact hi.trans_eq hvr.symm
    · exact Nat.le_add_left 1 j
    · exact hlast.trans_eq (congrArg _ hvr.symm)
  · by_cases hnext : i + 1 < h.r
    · rw [microStep_parity_close s h (not_lt.1 hlast) hnext]
      refine keepsFit_inLoop (s := s.inLoop h (.parity i j)) ⟨⟨henc.valid, hvr.trans hr, ?_⟩, ?_, le_rfl, ?_⟩ hclose
      · exact hclen.trans (congrArg _ hvr.symm)
      · exact hnext.trans_eq hvr.symm
      · exact hpos.trans_eq (congrArg _ hvr.symm)
    · rw [microStep_parity_end s h (not_lt.1 hlast) (not_lt.1 hnext)]
      refine keepsFit_answer_ham (s := s.inLoop h (.parity i j)) hclose fun _ => (response_fits_iff _ _).2 ⟨?_, ?_, ?_⟩
      · exact hclen ▸ hadmits
      · exact Capacity.admits_zero
      · exact Capacity.holdsPos_zero

/-! ### Checks and correction -/

theorem keepsFit_microStep_check {i j : Nat} (htrack : (s.inLoop h (.check i j)).OnTrack) :
    KeepsFit (s.inLoop h (.check i j)) (microStep (s.inLoop h (.check i j))) := by
  obtain ⟨hdec, hi, h1, hle, herr⟩ := htrack
  obtain ⟨hm, hadmits⟩ := (validHamDec_iff _ _).1 hdec.valid
  have hr : h.r = rDec s.a.len := hdec.r
  have hilen : s.cap.holdsLen i = true := Capacity.holdsLen_of_le (hi.le.trans (hr.le.trans (rDec_le_self hm))) hadmits
  have hvisit (hh : h.Fit s.cap) : ((h.entering i j).checkVisit i j).Fit s.cap :=
    (hh.entering hilen j).visit (Capacity.holdsLen_of_le hle hadmits) _
  have hvr : ((h.entering i j).checkVisit i j).r = h.r := entering_r h i j
  have hvcw : ((h.entering i j).checkVisit i j).cw = h.cw := entering_cw i j
  have hverr : ((h.entering i j).checkVisit i j).errAcc = h.errAcc := entering_errAcc i j
  by_cases hlast : j < s.a.len
  · rw [microStep_check_of_lt s h hlast]
    refine keepsFit_inLoop (s := s.inLoop h (.check i j)) ⟨⟨hdec.valid, hvr.trans hr, ?_⟩, ?_, ?_, hlast, ?_⟩ hvisit
    · exact (congrArg List.length hvcw).trans hdec.cw
    · exact hi.trans_eq hvr.symm
    · exact Nat.le_add_left 1 j
    · exact hverr.trans_lt herr
  · rw [microStep_check_close s h (not_lt.1 hlast)]
    have herr' : (((h.entering i j).checkVisit i j).closeCheck i).errAcc < 2 ^ (i + 1) := by
      rw [closeCheck_errAcc, hverr, pow_succ]
      have herr0 : h.errAcc < 2 ^ i := herr
      split <;> omega
    have hbound : (((h.entering i j).checkVisit i j).closeCheck i).errAcc < 2 ^ rDec s.a.len :=
      herr'.trans_le (Nat.pow_le_pow_right two_pos (hr ▸ hi))
    have hdecoding (st : Stage) : (s.inLoop (((h.entering i j).checkVisit i j).closeCheck i) st).Decoding :=
      ⟨hdec.valid, hvr.trans hr, (congrArg List.length hvcw).trans hdec.cw⟩
    refine keepsFit_inLoop (s := s.inLoop h (.check i j)) ?_ fun hh => ?_
    · split
      · next hnext => exact ⟨hdecoding _, hnext.trans_eq hvr.symm, le_rfl, hm, herr'⟩
      · exact ⟨hdecoding _, hbound.trans_eq (congrArg _ (hvr.trans hr).symm)⟩
    · have hv := hvisit hh
      exact ⟨hv.r, hv.cw, hv.pos, hv.didx, hv.pi, hv.j, Capacity.holdsPos_of_lt hbound hadmits⟩

theorem correctAt_length (cw : BitString) (e : Nat) : (correctAt cw e).length = cw.length := by
  rw [correctAt_eq]
  split
  · exact flipAt_length cw e
  · rfl

theorem keepsFit_microStep_correct (htrack : (s.inLoop h .correct).OnTrack) :
    KeepsFit (s.inLoop h .correct) (microStep (s.inLoop h .correct)) := by
  obtain ⟨hdec, herr⟩ := htrack
  obtain ⟨-, hadmits⟩ := (validHamDec_iff _ _).1 hdec.valid
  rw [microStep_correct]
  refine keepsFit_answer_ham (s := s.inLoop h .correct) id fun _ => (response_fits_iff _ _).2 ⟨?_, ?_, ?_⟩
  · exact (correctAt_length _ _).trans hdec.cw ▸ hadmits
  · exact Capacity.admits_zero
  · exact Capacity.holdsPos_of_lt (herr.trans_eq (congrArg _ hdec.r)) hadmits

end

/-! ### The divider -/

/-- Dropping the leading bit of the conditional XOR leaves fewer than `L` bits. -/
theorem remainder_length_le (k : BitString) (v : DivLatches) : (v.remainder k).length ≤ k.length - 1 := by
  rw [DivLatches.remainder, sub_length]
  omega

theorem iterate_tmp_length_le {k : BitString} (hk : 1 ≤ k.length) (v : DivLatches) :
    (v.iterate k).tmp.length ≤ k.length := by
  have hrem := remainder_length_le k v
  have hbit : (sub v.divd (v.pick + 1) (v.pick + 1)).length ≤ 1 := by rw [sub_length]; omega
  have hsum : (v.iterate k).tmp.length = (v.remainder k).length + (sub v.divd (v.pick + 1) (v.pick + 1)).length :=
    List.length_append
  omega

section
variable {s : State}

theorem divideResponse_fits (h : s.Dividing) : s.divideResponse.fits s.cap = true := by
  have hrem := remainder_length_le s.b.value s.div
  rw [value_length] at hrem
  unfold State.divideResponse
  dsimp only
  split
  · next hop =>
    refine (response_fits_iff _ _).2 ⟨?_, ?_, Capacity.holdsPos_zero⟩
    · refine Capacity.admits_of_le ?_ (h.result hop)
      have hkey := h.key
      simp only [Response.crcEnc, List.length_append, value_length]
      omega
    · exact Capacity.admits_of_le (hrem.trans (Nat.sub_le _ _)) h.keyFits
  · exact (response_fits_iff _ _).2 ⟨Capacity.admits_zero, Capacity.admits_zero, Capacity.holdsPos_zero⟩

theorem keepsFit_microStep_dividing {v : DivLatches} (h : (s.dividing v).Dividing) :
    KeepsFit (s.dividing v) (microStep (s.dividing v)) := by
  by_cases hpick : v.pick < v.divd.length
  · rw [microStep_dividing_of_lt s v hpick]
    have hwindow : (v.iterate s.b.value).tmp.length ≤ s.b.len := by
      have hle := iterate_tmp_length_le (k := s.b.value) ((value_length s.b).symm ▸ h.key) v
      rwa [value_length] at hle
    refine ⟨fun _ => ⟨h.key, h.keyFits, h.dividend, hwindow, hpick, h.result⟩, fun hs => ?_⟩
    exact ⟨hs.a, hs.b, ⟨h.dividend, Capacity.admits_of_le hwindow h.keyFits, Capacity.holdsLen_of_le hpick h.dividend⟩,
      hs.ham, hs.rsp⟩
  · rw [microStep_dividing_of_le s v (not_lt.1 hpick)]
    have hrsp := divideResponse_fits h
    exact ⟨fun hbusy => by simp at hbusy, fun hs => ⟨hs.a, hs.b, hs.div, hs.ham, hrsp⟩⟩

/-! ### Any micro-step, and any number of them -/

theorem keepsFit_microStep (h : s.Tracked) : KeepsFit s (microStep s) := by
  cases hphase : s.phase with
  | idle => rw [microStep_of_idle s hphase]; exact ⟨h, id⟩
  | done => rw [microStep_of_done s hphase]; exact ⟨h, id⟩
  | busy =>
    have htrack := h hphase
    cases hstage : s.stage with
    | rest => simp [State.OnTrack, hstage] at htrack
    | divide =>
      rw [← dividing_self hphase hstage] at htrack ⊢
      exact keepsFit_microStep_dividing htrack
    | search =>
      rw [← inLoop_self hphase, hstage] at htrack ⊢
      obtain ⟨hsearch, hshort⟩ := htrack
      exact keepsFit_microStep_search hsearch hshort
    | place pos =>
      rw [← inLoop_self hphase, hstage] at htrack ⊢
      exact keepsFit_microStep_place htrack
    | parity i j =>
      rw [← inLoop_self hphase, hstage] at htrack ⊢
      exact keepsFit_microStep_parity htrack
    | check i j =>
      rw [← inLoop_self hphase, hstage] at htrack ⊢
      exact keepsFit_microStep_check htrack
    | correct =>
      rw [← inLoop_self hphase, hstage] at htrack ⊢
      exact keepsFit_microStep_correct htrack

theorem keepsFit_work (k : Nat) (h : s.Tracked) : KeepsFit s (work k s) := by
  induction k generalizing s with
  | zero => exact ⟨h, id⟩
  | succ k ih =>
    have hfirst := keepsFit_microStep h
    have hrest := ih hfirst.tracked
    exact ⟨hrest.tracked, hrest.fits ∘ hfirst.fits⟩

end

/-! ### Acceptance -/

@[simp] theorem encodeWires_wellFormed (cap : Capacity) (i : Instr) :
    (encodeWires i).wellFormed cap = i.wellFormed cap := by
  cases i <;> rfl

theorem decodeWires_wellFormed (cap : Capacity) (c : CmdWires) : (decodeWires c).wellFormed cap = c.wellFormed cap := by
  rw [← encodeWires_wellFormed, encodeWires_decodeWires]

theorem State.Fits.captureInstr {s : State} (hs : s.Fits) {i : Instr} (hi : i.wellFormed s.cap = true) :
    (s.captureInstr i).Fits := by
  rw [← encodeWires_wellFormed, CmdWires.wellFormed, Bool.and_eq_true] at hi
  obtain ⟨ha, hb⟩ := hi
  exact ⟨ha, hb, hs.div, hs.ham, hs.rsp⟩

/-- The divider's start: the first window, and the whole dividend ahead of it. -/
theorem keepsFit_load {s : State} {d : BitString} (hkey : 1 ≤ s.b.len) (hle : s.b.len ≤ d.length)
    (hd : s.cap.admits d.length = true) (hresult : s.op = 0b00#2 → s.cap.admits (s.a.len + s.b.len - 1) = true) :
    KeepsFit s (s.dividing (.load d s.b.len)) := by
  have hwindow : (DivLatches.load d s.b.len).tmp.length ≤ s.b.len := by
    rw [load_tmp, sub_length]
    omega
  refine ⟨fun _ => ⟨hkey, Capacity.admits_of_le hle hd, hd, hwindow, hle, hresult⟩, fun hs => ?_⟩
  exact ⟨hs.a, hs.b, ⟨hd, Capacity.admits_of_le (hwindow.trans hle) hd, Capacity.holdsLen_of_le hle hd⟩, hs.ham, hs.rsp⟩

theorem keepsFit_launch {i : Instr} {s : State} (hvalid : validInstr s.cap i = true) :
    KeepsFit (s.captureInstr i) ((s.captureInstr i).launch i) := by
  cases i with
  | crcEnc a b =>
    obtain ⟨ha, hb, hsum⟩ := (validCrcEnc_iff _ _ _).1 hvalid
    have hlen : (padded a.value b.value).length = a.len + b.len - 1 := by simp [padded]; omega
    have hload := keepsFit_load (s := s.captureInstr (.crcEnc a b)) (d := padded a.value b.value)
      (one_le_two.trans hb) (hlen ▸ (by change b.len ≤ _; omega)) (hlen ▸ hsum) (fun _ => hsum)
    rw [State.launch, value_length]
    exact hload
  | crcVfy a b =>
    obtain ⟨hb, hle, hadmits⟩ := (validCrcVfy_iff _ _ _).1 hvalid
    have hop : (0b01#2 : BitVec 2) ≠ 0b00#2 := by decide
    have hload := keepsFit_load (s := s.captureInstr (.crcVfy a b)) (d := a.value) (one_le_two.trans hb)
      ((value_length a).symm ▸ hle) ((value_length a).symm ▸ hadmits) (fun h => absurd h hop)
    rw [State.launch, value_length]
    exact hload
  | hamEnc a b =>
    obtain ⟨hn, -⟩ := (validHamEnc_iff _ _).1 hvalid
    refine keepsFit_search (h := { s.ham with r := 1 }) rfl ⟨le_rfl, fun _ => ⟨hvalid, ?_⟩, fun hop => absurd rfl hop⟩
      fun hh hr => ⟨hr, hh.cw, hh.pos, hh.didx, hh.pi, hh.j, hh.errAcc⟩
    exact one_le_two.trans (two_le_rEnc hn)
  | hamDec a b =>
    obtain ⟨-, hadmits⟩ := (validHamDec_iff _ _).1 hvalid
    have hop : (0b11#2 : BitVec 2) ≠ 0b10#2 := by decide
    exact keepsFit_search (h := { s.ham with r := 1, cw := a.value }) rfl
      ⟨le_rfl, fun h => absurd h hop, fun _ => ⟨hvalid, one_le_rDec _, value_length a⟩⟩
      fun hh hr => ⟨hr, (value_length a).symm ▸ hadmits, hh.pos, hh.didx, hh.pi, hh.j, hh.errAcc⟩

theorem accept_tracked (i : Instr) (s : State) : (accept i s).Tracked := by
  cases hvalid : validInstr s.cap i with
  | true => rw [accept_of_valid hvalid]; exact (keepsFit_launch hvalid).tracked
  | false => rw [accept_of_invalid hvalid]; exact fun hbusy => by simp at hbusy

theorem accept_fits {i : Instr} {s : State} (hs : s.Fits) (hi : i.wellFormed s.cap = true) : (accept i s).Fits := by
  have hcapture := hs.captureInstr hi
  cases hvalid : validInstr s.cap i with
  | true => rw [accept_of_valid hvalid]; exact (keepsFit_launch hvalid).fits hcapture
  | false =>
    rw [accept_of_invalid hvalid]
    exact ⟨hcapture.a, hcapture.b, hcapture.div, hcapture.ham,
      (response_fits_iff _ _).2 ⟨Capacity.admits_zero, Capacity.admits_zero, Capacity.holdsPos_zero⟩⟩

theorem work_accept_fits {i : Instr} {s : State} (hs : s.Fits) (hi : i.wellFormed s.cap = true) (k : Nat) :
    (work k (accept i s)).Fits := (keepsFit_work k (accept_tracked i s)).fits (accept_fits hs hi)

theorem exec_fits {i : Instr} {s t : State} (hs : s.Fits) (hi : i.wellFormed s.cap = true) (h : exec i s = .next t) :
    t.Fits := by
  rw [exec_eq_work_accept] at h
  cases h
  exact work_accept_fits hs hi _

/-- A coherent core is on track, whatever its host does: its latches come from an acceptance. -/
theorem tracked_of_coherent {s : State} (h : s.Coherent) (l : List Tick) (p : List CmdWires) (d : Nat) :
    (s.withHost l p d).Tracked := by
  intro hphase
  obtain ⟨k, hflight⟩ := (coherent_busy_iff (s := s) hphase).1 h
  obtain ⟨before, hs⟩ := hflight.accepted
  have hfrom : s.withHost l p d = work k (accept s.captured (before.withHost l p d)) := by
    rw [accept_withHost, work_withHost, ← hs]
  rw [hfrom] at hphase ⊢
  exact (keepsFit_work k (accept_tracked _ _)).tracked hphase

/-! ### The wires -/

theorem wiresFit_iff (s : State) :
    s.wiresFit = true ↔
      (∀ n ∈ s.inputs, n.cmd.wellFormed s.cap = true) ∧ ∀ c ∈ s.presented, c.wellFormed s.cap = true := by
  simp [State.wiresFit]

theorem now_wellFormed {s : State} (h : ∀ n ∈ s.inputs, n.cmd.wellFormed s.cap = true) :
    s.now.cmd.wellFormed s.cap = true :=
  now_of_forall_mem_take (p := fun n => n.cmd.wellFormed s.cap = true) (k := s.inputs.length)
    (by simp [Tick.quiet, CmdWires.wellFormed, Operand.wellFormed]) fun n hn => h n (List.mem_of_mem_take hn)

theorem candidates_wellFormed {s : State} (h : s.wiresFit = true) :
    ∀ c ∈ s.candidates s.now.cmd, c.wellFormed s.cap = true := by
  obtain ⟨hinputs, hpresented⟩ := (wiresFit_iff s).1 h
  intro c hc
  rcases mem_candidates.1 hc with rfl | hmem
  · exact now_wellFormed hinputs
  · exact hpresented c hmem

/-- The record after a step: nothing, what it was, or that with the present wires. -/
theorem step_presented {s t : State} (h : step s = .next t) :
    t.presented = [] ∨ t.presented = s.presented ∨ t.presented = s.candidates s.now.cmd := by
  have hnoted : s.notePresented.presented = s.presented ∨ s.notePresented.presented = s.candidates s.now.cmd := by
    rw [State.notePresented_presented]
    split
    · exact .inr rfl
    · exact .inl rfl
  rcases step_cases s with ⟨-, hstep⟩ | ⟨-, -, hstep⟩ | ⟨-, -, hstep⟩ | ⟨-, -, hstep⟩
  · cases hstep.symm.trans h
    exact .inl rfl
  · rcases onIdle_cases s with ⟨-, hidle⟩ | ⟨-, -, hidle⟩ | ⟨-, k, -, hidle⟩
    · cases hidle.symm.trans (hstep.symm.trans h)
      exact .inr (.inl rfl)
    · exact .inl (exec_keeps (hidle.symm.trans (hstep.symm.trans h))).presented
    · cases hidle.symm.trans (hstep.symm.trans h)
      exact .inl ((accept_keeps _ _).trans (work_keeps k _)).presented
  · rcases onBusy_cases s with ⟨-, hbusy⟩ | ⟨k, -, hbusy⟩
    · have hkeeps := exec_keeps (hbusy.symm.trans (hstep.symm.trans h))
      exact .inr (hkeeps.presented ▸ hnoted)
    · cases hbusy.symm.trans (hstep.symm.trans h)
      exact .inr ((work_keeps k s.notePresented.consume).presented ▸ hnoted)
  · cases hstep.symm.trans h
    rcases onDone_cases s with ⟨-, hdone⟩ | ⟨-, hdone⟩
    · rw [hdone]
      exact .inr hnoted
    · rw [hdone]
      exact .inr hnoted

/-! ### One step -/

theorem resetLatches_fits (s : State) : s.resetLatches.Fits := by
  rw [fits_iff]
  simp [State.latchesFit, Operand.wellFormed, DivLatches.reset, HamLatches.reset, Response.zero]

theorem step_fits {s t : State} (hcoherent : s.Coherent) (hs : s.Fits) (hwires : s.wiresFit = true)
    (h : step s = .next t) : t.Fits := by
  rcases step_cases s with ⟨-, hstep⟩ | ⟨-, -, hstep⟩ | ⟨-, -, hstep⟩ | ⟨-, -, hstep⟩
  · cases hstep.symm.trans h
    exact resetLatches_fits s.consume
  · have hopened : s.opened.Fits := ⟨hs.a, hs.b, hs.div, hs.ham, hs.rsp⟩
    have hchosen : (decodeWires (s.choose s.now.cmd)).wellFormed s.opened.cap = true :=
      (decodeWires_wellFormed _ _).trans (candidates_wellFormed hwires _ (choose_mem_candidates s _))
    rcases onIdle_cases s with ⟨-, hidle⟩ | ⟨-, -, hidle⟩ | ⟨-, k, -, hidle⟩
    · cases hidle.symm.trans (hstep.symm.trans h)
      exact ⟨hs.a, hs.b, hs.div, hs.ham, hs.rsp⟩
    · exact exec_fits hopened hchosen (hidle.symm.trans (hstep.symm.trans h))
    · cases hidle.symm.trans (hstep.symm.trans h)
      exact work_accept_fits hopened hchosen k
  · have hnoted : s.notePresented.consume.Fits := ⟨hs.a, hs.b, hs.div, hs.ham, hs.rsp⟩
    rcases onBusy_cases s with ⟨-, hbusy⟩ | ⟨k, -, hbusy⟩
    · refine exec_fits hnoted ?_ (hbusy.symm.trans (hstep.symm.trans h))
      rw [State.captured, decodeWires_wellFormed, CmdWires.wellFormed, Bool.and_eq_true]
      exact ⟨hs.a, hs.b⟩
    · cases hbusy.symm.trans (hstep.symm.trans h)
      have htracked : s.notePresented.consume.Tracked := tracked_of_coherent hcoherent _ _ _
      exact (keepsFit_work k htracked).fits hnoted
  · cases hstep.symm.trans h
    rcases onDone_cases s with ⟨-, hdone⟩ | ⟨-, hdone⟩
    · rw [hdone]
      exact ⟨hs.a, hs.b, hs.div, hs.ham, hs.rsp⟩
    · rw [hdone]
      exact ⟨hs.a, hs.b, hs.div, hs.ham, hs.rsp⟩

theorem step_wiresFit {s t : State} (hwires : s.wiresFit = true) (h : step s = .next t) : t.wiresFit = true := by
  obtain ⟨u, hu, hcap, hin⟩ := everyStepHasNextState s
  cases hu.symm.trans h
  obtain ⟨hinputs, hpresented⟩ := (wiresFit_iff s).1 hwires
  rw [wiresFit_iff, hcap, hin]
  refine ⟨fun n hn => hinputs n (List.mem_of_mem_tail hn), ?_⟩
  rcases step_presented h with hp | hp | hp
  · simp [hp]
  · rw [hp]; exact hpresented
  · rw [hp]; exact candidates_wellFormed hwires

/-- Settles O57: micro-steps and acceptance keep the latches of a core on track, and the wires are the host's. -/
theorem stepKeepsLatchWidths : Obligations.StepKeepsLatchWidths := fun s t _ hcoherent hlatches hwires h =>
  ⟨(fits_iff t).1 (step_fits hcoherent ((fits_iff s).2 hlatches) hwires h), step_wiresFit hwires h⟩

/-- Settles O58: at capacity 16 every latch is 0 or empty, and no move is scheduled. -/
theorem resetLatchesFit : Obligations.ResetLatchesFit := by
  unfold Obligations.ResetLatchesFit
  decide

end Sys2Proof.Machine

/-! PROOFS. The flattened words (30_encoding.md R63, R66): fields packed one above the other, read back as slices, and
the command word and the response word as such packings. -/

namespace Sys2Proof.Machine

/-! ### Fields packed in a word -/

/-- Fields as (width, value), the lowest first, packed into one natural. -/
def packFields : List (Nat × Nat) → Nat
  | [] => 0
  | (width, v) :: fs => v + 2 ^ width * packFields fs

/-- The fields of the given widths, read from wire `lo` upward. -/
def readFields (w lo : Nat) : List Nat → List (Nat × Nat)
  | [] => []
  | width :: ws => (width, slice w lo width) :: readFields w (lo + width) ws

theorem packFields_lt {fs : List (Nat × Nat)} (h : ∀ f ∈ fs, f.2 < 2 ^ f.1) :
    packFields fs < 2 ^ (fs.map Prod.fst).sum := by
  induction fs with
  | nil => exact Nat.one_pos
  | cons f fs ih =>
    obtain ⟨hf, hfs⟩ := List.forall_mem_cons.1 h
    have hrest := ih hfs
    calc packFields (f :: fs) = f.2 + 2 ^ f.1 * packFields fs := rfl
      _ < 2 ^ f.1 * (packFields fs + 1) := by rw [mul_add, mul_one]; omega
      _ ≤ 2 ^ f.1 * 2 ^ (fs.map Prod.fst).sum := Nat.mul_le_mul_left _ hrest
      _ = 2 ^ ((f :: fs).map Prod.fst).sum := by rw [List.map_cons, List.sum_cons, pow_add]

/-- A field is a slice, whatever is packed below and above it. -/
theorem slice_packed {x lo width v rest : Nat} (hx : x < 2 ^ lo) (hv : v < 2 ^ width) :
    slice (x + 2 ^ lo * (v + 2 ^ width * rest)) lo width = v := by
  rw [slice, Nat.add_mul_div_left _ _ (Nat.two_pow_pos lo), Nat.div_eq_of_lt hx, Nat.zero_add,
    Nat.add_mul_mod_self_left, Nat.mod_eq_of_lt hv]

/-- Reading the fields that were packed gives them back. -/
theorem readFields_packFields {fs : List (Nat × Nat)} (h : ∀ f ∈ fs, f.2 < 2 ^ f.1) {x lo : Nat} (hx : x < 2 ^ lo) :
    readFields (x + 2 ^ lo * packFields fs) lo (fs.map Prod.fst) = fs := by
  induction fs generalizing x lo with
  | nil => rfl
  | cons f fs ih =>
    obtain ⟨hf, hfs⟩ := List.forall_mem_cons.1 h
    have hlow : x + 2 ^ lo * f.2 < 2 ^ (lo + f.1) := by
      calc x + 2 ^ lo * f.2 < 2 ^ lo * (f.2 + 1) := by rw [mul_add, mul_one]; omega
        _ ≤ 2 ^ lo * 2 ^ f.1 := Nat.mul_le_mul_left _ hf
        _ = 2 ^ (lo + f.1) := (pow_add 2 lo f.1).symm
    have hword : x + 2 ^ lo * packFields (f :: fs) = x + 2 ^ lo * f.2 + 2 ^ (lo + f.1) * packFields fs := by
      rw [packFields, pow_add]
      ring
    have hhead : slice (x + 2 ^ lo * packFields (f :: fs)) lo f.1 = f.2 := slice_packed hx hf
    rw [List.map_cons, readFields, hhead, hword, ih hfs hlow]

/-- Packing the fields read gives the wires read. -/
theorem packFields_readFields (w lo : Nat) (ws : List Nat) : packFields (readFields w lo ws) = slice w lo ws.sum := by
  induction ws generalizing lo with
  | nil => simp [readFields, packFields, slice, Nat.mod_one]
  | cons width ws ih =>
    rw [readFields, packFields, ih, List.sum_cons, slice, slice, slice, pow_add, pow_add, Nat.mod_mul,
      Nat.div_div_eq_div_mul]

theorem slice_zero_of_lt {w width : Nat} (h : w < 2 ^ width) : slice w 0 width = w := by
  rw [slice, pow_zero, Nat.div_one, Nat.mod_eq_of_lt h]

theorem slice_lt (w lo width : Nat) : slice w lo width < 2 ^ width := Nat.mod_lt _ (Nat.two_pow_pos width)

/-! ### The command word -/

/-- The fields of a command word, in the order of R63. -/
def commandFields (cap : Nat) (c : CmdWires) : List (Nat × Nat) :=
  [(2, c.op.toNat), (lenW cap, c.a.len), (cap, c.a.bits), (lenW cap, c.b.len), (cap, c.b.bits)]

theorem wiresWord_eq_packFields (cap : Nat) (c : CmdWires) : wiresWord cap c = packFields (commandFields cap c) := by
  simp only [wiresWord, commandFields, packFields, pow_add, two_mul]
  ring

theorem commandFields_widths_sum (cap : Nat) (c : CmdWires) : ((commandFields cap c).map Prod.fst).sum = cmdW cap := by
  simp [commandFields, cmdW]
  omega

theorem wellFormed_bounded_iff (cap : Nat) (c : CmdWires) :
    c.wellFormed (.bounded cap) = true ↔ ∀ f ∈ commandFields cap c, f.2 < 2 ^ f.1 := by
  have hop : c.op.toNat < 2 ^ 2 := c.op.isLt
  simp only [CmdWires.wellFormed, Operand.wellFormed, Capacity.holdsLen, Capacity.holdsBits, Bool.and_eq_true,
    decide_eq_true_eq, and_assoc, commandFields, List.forall_mem_cons, hop, true_and, List.not_mem_nil, false_implies,
    implies_true, and_true]

theorem mem_readFields_lt {w lo : Nat} {ws : List Nat} : ∀ f ∈ readFields w lo ws, f.2 < 2 ^ f.1 := by
  induction ws generalizing lo with
  | nil => simp [readFields]
  | cons width ws ih => exact List.forall_mem_cons.2 ⟨slice_lt w lo width, ih⟩

/-- The decoder's slices are the fields of R63, read in order. -/
theorem commandFields_wordFields (cap w : Nat) :
    commandFields cap (wordFields cap w) = readFields w 0 [2, lenW cap, cap, lenW cap, cap] := by
  have hop : (BitVec.ofNat 2 (slice w 0 2)).toNat = slice w 0 2 := Nat.mod_eq_of_lt (slice_lt w 0 2)
  have hab : 0 + 2 + lenW cap = lenW cap + 2 := by omega
  have hbl : lenW cap + 2 + cap = lenW cap + cap + 2 := by omega
  have hbb : lenW cap + cap + 2 + lenW cap = 2 * lenW cap + cap + 2 := by omega
  simp only [commandFields, wordFields, readFields, hop, hab, hbl, hbb, Nat.zero_add]

/-- The fields of a command word determine the wires. -/
theorem commandFields_injective (cap : Nat) : Function.Injective (commandFields cap) := by
  rintro ⟨op, a, b⟩ ⟨op', a', b'⟩ h
  simp only [commandFields, List.cons.injEq, Prod.mk.injEq, true_and, and_true] at h
  obtain ⟨hop, halen, habits, hblen, hbbits⟩ := h
  obtain rfl := BitVec.eq_of_toNat_eq hop
  cases a; cases a'; cases b; cases b'
  cases halen; cases habits; cases hblen; cases hbbits
  rfl

theorem wordFields_wiresWord {cap : Nat} {c : CmdWires} (h : c.wellFormed (.bounded cap) = true) :
    wordFields cap (wiresWord cap c) = c := by
  refine commandFields_injective cap ?_
  have hread := readFields_packFields ((wellFormed_bounded_iff cap c).1 h) (x := 0) (lo := 0) Nat.one_pos
  rw [pow_zero, one_mul, zero_add] at hread
  rw [commandFields_wordFields, wiresWord_eq_packFields]
  exact hread

theorem wiresWord_wordFields {cap w : Nat} (h : w < 2 ^ cmdW cap) : wiresWord cap (wordFields cap w) = w := by
  rw [wiresWord_eq_packFields, commandFields_wordFields, packFields_readFields]
  refine slice_zero_of_lt (h.trans_le (Nat.pow_le_pow_right two_pos ?_))
  simp [cmdW]
  omega

theorem wiresWord_lt {cap : Nat} {c : CmdWires} (h : c.wellFormed (.bounded cap) = true) :
    wiresWord cap c < 2 ^ cmdW cap := by
  rw [wiresWord_eq_packFields, ← commandFields_widths_sum cap c]
  exact packFields_lt ((wellFormed_bounded_iff cap c).1 h)

/-- Settles O1: the word packs the fields of the wires, and the wires that carry a command decode to it. -/
theorem decodeOfEncodedCommand : Obligations.DecodeOfEncodedCommand := by
  intro cap i hi
  rw [← encodeWires_wellFormed] at hi
  have hlt : encodeWord cap i < 2 ^ cmdW cap := wiresWord_lt hi
  refine ⟨hlt, ?_⟩
  rw [decodeWord_of_lt hlt, encodeWord, wordFields_wiresWord hi, decodeWires_encodeWires]

/-- Settles O2: every slice fits its width, and the slices of the widths of R63 are the whole word. -/
theorem encodeOfDecodedWord : Obligations.EncodeOfDecodedWord := by
  intro cap w hw
  refine ⟨decodeWires (wordFields cap w), decodeWord_of_lt hw, ?_, ?_⟩
  · rw [decodeWires_wellFormed, wellFormed_bounded_iff, commandFields_wordFields]
    exact mem_readFields_lt
  · rw [encodeWord, encodeWires_decodeWires, wiresWord_wordFields hw]

/-! ### The response word -/

/-- The fields of a response word, in the order of R66. -/
def responseFields (cap : Nat) (r : Response) : List (Nat × Nat) :=
  [(2, r.status.code.toNat), (1, r.flag.toNat), (lenW cap, r.r0.length), (cap, bitsNat r.r0), (lenW cap, r.r1.length),
    (cap, bitsNat r.r1), (posW cap, r.errpos)]

theorem encodeResponse_eq_packFields (cap : Nat) (r : Response) :
    encodeResponse cap r = packFields (responseFields cap r) := by
  simp only [encodeResponse, ofBits_len, ofBits_bits, responseFields, packFields, pow_add, two_mul]
  ring

theorem responseFields_widths_sum (cap : Nat) (r : Response) :
    ((responseFields cap r).map Prod.fst).sum = rspW cap := by
  simp [responseFields, rspW]
  omega

theorem bitsNat_lt (s : BitString) : bitsNat s < 2 ^ s.length :=
  Nat.lt_pow_two_of_testBit _ fun k hk => testBit_bitsNat_of_length_le s k hk

theorem length_lt_of_admits {cap n : Nat} (h : Capacity.admits (.bounded cap) n = true) : n < 2 ^ lenW cap :=
  of_decide_eq_true (Capacity.holdsLen_of_le le_rfl h)

theorem bitsNat_lt_of_admits {cap : Nat} {s : BitString} (h : Capacity.admits (.bounded cap) s.length = true) :
    bitsNat s < 2 ^ cap :=
  (bitsNat_lt s).trans_le (Nat.pow_le_pow_right two_pos (of_decide_eq_true h))

theorem responseFields_lt {cap : Nat} {r : Response} (h : r.fits (.bounded cap) = true) :
    ∀ f ∈ responseFields cap r, f.2 < 2 ^ f.1 := by
  obtain ⟨hr0, hr1, hpos⟩ := (response_fits_iff _ _).1 h
  simp only [responseFields, List.forall_mem_cons, List.not_mem_nil, false_implies, implies_true, and_true]
  exact ⟨r.status.code.isLt, r.flag.toNat_lt, length_lt_of_admits hr0, bitsNat_lt_of_admits hr0,
    length_lt_of_admits hr1, bitsNat_lt_of_admits hr1, of_decide_eq_true hpos⟩

/-- The slices the host reads, in order. -/
theorem readFields_responseWidths (cap w : Nat) :
    readFields w 0 [2, 1, lenW cap, cap, lenW cap, cap, posW cap] =
      [(2, slice w 0 2), (1, slice w 2 1), (lenW cap, slice w 3 (lenW cap)), (cap, slice w (lenW cap + 3) cap),
        (lenW cap, slice w (lenW cap + cap + 3) (lenW cap)), (cap, slice w (2 * lenW cap + cap + 3) cap),
        (posW cap, slice w (2 * lenW cap + 2 * cap + 3) (posW cap))] := by
  have h0 : 2 + 1 + lenW cap = lenW cap + 3 := by omega
  have h1 : lenW cap + 3 + cap = lenW cap + cap + 3 := by omega
  have h2 : lenW cap + cap + 3 + lenW cap = 2 * lenW cap + cap + 3 := by omega
  have h3 : 2 * lenW cap + cap + 3 + cap = 2 * lenW cap + 2 * cap + 3 := by omega
  simp only [readFields, Nat.zero_add, h0, h1, h2, h3]

theorem ofCode_code (st : Status) : Status.ofCode st.code = some st := by cases st <;> rfl

theorem code_ne_three (st : Status) : st.code.toNat ≠ 3 := by cases st <;> decide

/-- A wire is the slice of width 1 there. -/
theorem testBit_eq_slice (w k : Nat) : w.testBit k = decide (slice w k 1 = 1) := by
  rw [Nat.testBit_eq_decide_div_mod_eq, slice, pow_one]

/-- Settles O5: the slices of the word are the response's fields, and each field determines its part. -/
theorem responseWordReadsBack : Obligations.ResponseWordReadsBack := by
  intro cap r hr
  have hfields := responseFields_lt hr
  have hlt : encodeResponse cap r < 2 ^ rspW cap := by
    rw [encodeResponse_eq_packFields, ← responseFields_widths_sum cap r]
    exact packFields_lt hfields
  have hread := readFields_packFields hfields (x := 0) (lo := 0) Nat.one_pos
  rw [pow_zero, one_mul, zero_add, ← encodeResponse_eq_packFields] at hread
  have hslices := (readFields_responseWidths cap (encodeResponse cap r)).symm.trans hread
  simp only [responseFields, List.cons.injEq, Prod.mk.injEq, true_and, and_true] at hslices
  obtain ⟨hstatus, hflag, hr0len, hr0bits, hr1len, hr1bits, hpos⟩ := hslices
  refine ⟨hlt, ?_, ?_⟩
  · have hmask : encodeResponse cap r &&& 3 = slice (encodeResponse cap r) 0 2 := by
      rw [slice, pow_zero, Nat.div_one]
      exact Nat.and_two_pow_sub_one_eq_mod _ 2
    rw [hmask, hstatus]
    exact code_ne_three r.status
  · have hr0 : (⟨r.r0.length, bitsNat r.r0⟩ : Operand).value = r.r0 := value_ofBits r.r0
    have hr1 : (⟨r.r1.length, bitsNat r.r1⟩ : Operand).value = r.r1 := value_ofBits r.r1
    have hbit : decide (r.flag.toNat = 1) = r.flag := by cases r.flag <;> rfl
    rw [decodeResponse, if_pos hlt, hstatus, BitVec.ofNat_toNat, BitVec.setWidth_eq, ofCode_code]
    simp only [testBit_eq_slice, hflag, hr0len, hr0bits, hr1len, hr1bits, hpos, hr0, hr1, hbit]

end Sys2Proof.Machine

/-! PROOFS. The textual form of commands (30_encoding.md R72): each part of a command line reads back. -/

namespace Sys2Proof.Machine

/-! ### Literals -/

/-- The characters of a literal's bits, as R72 writes them. -/
def bitChars (s : BitString) : List Char := s.map fun b => if b then '1' else '0'

theorem literal_append (s : BitString) (rest : List Char) :
    literal s ++ rest = '"' :: (bitChars s ++ '"' :: rest) := by
  simp [literal, bitChars]

theorem readBits_bitChars (s : BitString) (rest : List Char) :
    readBits (bitChars s ++ '"' :: rest) = .ok (s, rest) := by
  induction s with
  | nil => rfl
  | cons b s ih =>
    cases b with
    | false => exact congrArg (Except.map fun p => (false :: p.1, p.2)) ih
    | true => exact congrArg (Except.map fun p => (true :: p.1, p.2)) ih

theorem readLiteral_literal_append (s : BitString) (rest : List Char) :
    readLiteral (literal s ++ rest) = .ok (s, rest) := by
  rw [literal_append]
  exact readBits_bitChars s rest

theorem readLiteral_literal (s : BitString) : readLiteral (literal s) = .ok (s, []) := by
  have h := readLiteral_literal_append s []
  rwa [List.append_nil] at h

/-! ### Operands -/

theorem readOperands_literal (x : BitString) : readOperands (literal x) = .ok (.ofBits x, none) := by
  simp only [readOperands, readLiteral_literal]

theorem readOperands_literal_literal (x y : BitString) :
    readOperands (literal x ++ [',', ' '] ++ literal y) = .ok (.ofBits x, some (.ofBits y)) := by
  have hfirst : readLiteral (literal x ++ [',', ' '] ++ literal y) = .ok (x, ',' :: ' ' :: literal y) := by
    rw [List.append_assoc]
    exact readLiteral_literal_append x _
  simp only [readOperands, hfirst, readLiteral_literal]

/-! ### Command lines -/

/-- A text that starts with a mnemonic of R61 is read by that mnemonic's rule. -/
theorem readCommand_crcEnc (rest : List Char) :
    readCommand (['C', 'R', 'C', '_', 'E', 'N', 'C'] ++ ' ' :: rest) = (readOperands rest).bind (withKey .crcEnc) := rfl

theorem readCommand_crcVfy (rest : List Char) :
    readCommand (['C', 'R', 'C', '_', 'V', 'F', 'Y'] ++ ' ' :: rest) = (readOperands rest).bind (withKey .crcVfy) := rfl

theorem readCommand_hamEnc (rest : List Char) :
    readCommand (['H', 'A', 'M', '_', 'E', 'N', 'C'] ++ ' ' :: rest) = (readOperands rest).bind (withoutKey .hamEnc) :=
  rfl

theorem readCommand_hamDec (rest : List Char) :
    readCommand (['H', 'A', 'M', '_', 'D', 'E', 'C'] ++ ' ' :: rest) = (readOperands rest).bind (withoutKey .hamDec) :=
  rfl

/-- Settles O6: the mnemonic selects the rule, and the operands after it read back. -/
theorem commandLineReadsBack : Obligations.CommandLineReadsBack := by
  intro x y
  simp only [commandLine, mnemonic, value_ofBits]
  rw [readCommand_crcEnc, readCommand_crcVfy, readCommand_hamEnc, readCommand_hamDec, readOperands_literal_literal,
    readOperands_literal]
  exact ⟨rfl, rfl, rfl, rfl⟩

end Sys2Proof.Machine
